-- ==== Sys2Proof/Word.lean ====
section
/-! DEFINITION. The word types of the machine (00_scope.md R4, R5; 10_state.md R10, R12, R13). -/

namespace Sys2Proof

/-- One byte: a general register, a timer, a memory byte (R10, R17, R15). -/
abbrev Byte := BitVec 8

/-- One 16-bit word: `PC`, `I`, a stack entry, an opcode (R12, R13, R14, R60). -/
abbrev Word := BitVec 16

/-- The index of a general register `V[0]` to `V[15]`, an `x` or `y` field (R10, R61). -/
abbrev Reg := Fin 16

/-- The level of all sixteen keys, bit `k` for the key with hexadecimal value `k` (R20). -/
abbrev Keys := BitVec 16

/-- The 2048 one-bit cells of the framebuffer, cell `k` is bit `k` (R16, R132). -/
abbrev Framebuffer := BitVec 2048

/-- `VF`, the register that doubles as the flag (R11). -/
abbrev VF : Reg := 15

end Sys2Proof
end

