-- ==== Sys2Proof/Syntax.lean ====
section
/-! DEFINITION. The instructions: one constructor for each of the 36 rows of spec/opcode_table.json, in the row order of
30_encoding.md R65. -/

namespace Sys2Proof

/-- A decoded instruction (R65). `x`, `y` select general registers, `kk`, `nnn`, `n` are unsigned immediates (R61, R63). -/
inductive Instr where
  /-- `00E0` `CLS` (R130). -/
  | cls
  /-- `00EE` `RET` (R81). -/
  | ret
  /-- `0NNN` `SYS nnn` (R80). -/
  | sys (nnn : BitVec 12)
  /-- `1NNN` `JP nnn` (R82). -/
  | jp (nnn : BitVec 12)
  /-- `2NNN` `CALL nnn` (R83). -/
  | call (nnn : BitVec 12)
  /-- `3Xkk` `SE Vx, kk` (R90). -/
  | seImm (x : Reg) (kk : Byte)
  /-- `4Xkk` `SNE Vx, kk` (R91). -/
  | sneImm (x : Reg) (kk : Byte)
  /-- `5XY0` `SE Vx, Vy` (R92). -/
  | seReg (x y : Reg)
  /-- `6Xkk` `LD Vx, kk` (R100). -/
  | ldImm (x : Reg) (kk : Byte)
  /-- `7Xkk` `ADD Vx, kk` (R101). -/
  | addImm (x : Reg) (kk : Byte)
  /-- `8XY0` `LD Vx, Vy` (R105). -/
  | ldReg (x y : Reg)
  /-- `8XY1` `OR Vx, Vy` (R106). -/
  | orReg (x y : Reg)
  /-- `8XY2` `AND Vx, Vy` (R107). -/
  | andReg (x y : Reg)
  /-- `8XY3` `XOR Vx, Vy` (R108). -/
  | xorReg (x y : Reg)
  /-- `8XY4` `ADD Vx, Vy` (R109). -/
  | addReg (x y : Reg)
  /-- `8XY5` `SUB Vx, Vy` (R110). -/
  | subReg (x y : Reg)
  /-- `8XY6` `SHR Vx`; `y` is decoded and ignored (R111). -/
  | shr (x y : Reg)
  /-- `8XY7` `SUBN Vx, Vy` (R112). -/
  | subnReg (x y : Reg)
  /-- `8XYE` `SHL Vx`; `y` is decoded and ignored (R113). -/
  | shl (x y : Reg)
  /-- `9XY0` `SNE Vx, Vy` (R93). -/
  | sneReg (x y : Reg)
  /-- `ANNN` `LD I, nnn` (R120). -/
  | ldI (nnn : BitVec 12)
  /-- `BNNN` `JP V0, nnn` (R84). -/
  | jpV0 (nnn : BitVec 12)
  /-- `CXkk` `RND Vx, kk` (R145). -/
  | rnd (x : Reg) (kk : Byte)
  /-- `DXYN` `DRW Vx, Vy, n` (R131). -/
  | drw (x y : Reg) (n : BitVec 4)
  /-- `EX9E` `SKP Vx` (R94). -/
  | skp (x : Reg)
  /-- `EXA1` `SKNP Vx` (R95). -/
  | sknp (x : Reg)
  /-- `FX07` `LD Vx, DT` (R140). -/
  | ldVxDT (x : Reg)
  /-- `FX0A` `LD Vx, K` (R146). -/
  | ldVxK (x : Reg)
  /-- `FX15` `LD DT, Vx` (R141). -/
  | ldDTVx (x : Reg)
  /-- `FX18` `LD ST, Vx` (R142). -/
  | ldSTVx (x : Reg)
  /-- `FX1E` `ADD I, Vx` (R121). -/
  | addIVx (x : Reg)
  /-- `FX29` `LD F, Vx` (R122). -/
  | ldFVx (x : Reg)
  /-- `FX33` `LD B, Vx` (R123). -/
  | ldBVx (x : Reg)
  /-- `FX55` `LD [I], Vx` (R124). -/
  | ldMemVx (x : Reg)
  /-- `FX65` `LD Vx, [I]` (R125). -/
  | ldVxMem (x : Reg)
  /-- Any other word (R150); the word is kept so that no bit of it is lost. -/
  | unknown (op : Word)
  deriving DecidableEq, Repr

end Sys2Proof
end

