-- ==== Sys2Proof/WellFormed.lean ====
section
/-! DEFINITION. Which instruction terms are instructions of the machine. Field types bound every operand; two terms need
a check: a `SYS` whose word is that of `CLS` or `RET` (30_encoding.md R66) and an `UNKNOWN` whose word a row of the opcode
map matches (R71). -/

namespace Sys2Proof

/-- The words of the `Unknown` space, as R71 lists them group by group: `5XYn` and `9XYn` with `n != 0`, `8XYn` with `n`
in 8 to D or F, `EXkk` and `FXkk` outside the listed `kk`. -/
def isUnknownWord (op : Word) : Bool :=
  let c := op.extractLsb' 12 4
  let n := op.extractLsb' 0 4
  let kk := op.extractLsb' 0 8
  (c == 0x5#4 && n != 0x0#4) ||
  (c == 0x8#4 && [0x8#4, 0x9#4, 0xA#4, 0xB#4, 0xC#4, 0xD#4, 0xF#4].contains n) ||
  (c == 0x9#4 && n != 0x0#4) ||
  (c == 0xE#4 && !([0x9E#8, 0xA1#8].contains kk)) ||
  (c == 0xF#4 &&
    !([0x07#8, 0x0A#8, 0x15#8, 0x18#8, 0x1E#8, 0x29#8, 0x33#8, 0x55#8, 0x65#8].contains kk))

/-- The check on an instruction term (R66, R71). -/
def Instr.wellFormed (i : Instr) : Bool :=
  match i with
  | .cls => true
  | .ret => true
  | .sys nnn => nnn != 0x0E0#12 && nnn != 0x0EE#12
  | .jp _ => true
  | .call _ => true
  | .seImm _ _ => true
  | .sneImm _ _ => true
  | .seReg _ _ => true
  | .ldImm _ _ => true
  | .addImm _ _ => true
  | .ldReg _ _ => true
  | .orReg _ _ => true
  | .andReg _ _ => true
  | .xorReg _ _ => true
  | .addReg _ _ => true
  | .subReg _ _ => true
  | .shr _ _ => true
  | .subnReg _ _ => true
  | .shl _ _ => true
  | .sneReg _ _ => true
  | .ldI _ => true
  | .jpV0 _ => true
  | .rnd _ _ => true
  | .drw _ _ _ => true
  | .skp _ => true
  | .sknp _ => true
  | .ldVxDT _ => true
  | .ldVxK _ => true
  | .ldDTVx _ => true
  | .ldSTVx _ => true
  | .addIVx _ => true
  | .ldFVx _ => true
  | .ldBVx _ => true
  | .ldMemVx _ => true
  | .ldVxMem _ => true
  | .unknown op => isUnknownWord op

/-- A well-formed instruction: the check as a proposition. -/
abbrev Instr.WellFormed (i : Instr) : Prop := i.wellFormed = true

end Sys2Proof
end

