-- ==== Sys2Proof/Decode.lean ====
section
/-! DEFINITION. The decoder, total on words and rejecting short byte strings by name; the encoder; and the opcode map as
the table of 30_encoding.md R65. -/

namespace Sys2Proof

/-! ## Fields (R61) -/

/-- `c`, bits 15 to 12, the opcode group. -/
def fieldC (op : Word) : BitVec 4 := op.extractLsb' 12 4

/-- `x`, bits 11 to 8. -/
def fieldX (op : Word) : Reg := (op.extractLsb' 8 4).toFin

/-- `y`, bits 7 to 4. -/
def fieldY (op : Word) : Reg := (op.extractLsb' 4 4).toFin

/-- `n`, bits 3 to 0. -/
def fieldN (op : Word) : BitVec 4 := op.extractLsb' 0 4

/-- `kk`, bits 7 to 0. -/
def fieldKK (op : Word) : Byte := op.extractLsb' 0 8

/-- `nnn`, bits 11 to 0. -/
def fieldNNN (op : Word) : BitVec 12 := op.extractLsb' 0 12

/-! ## The decoder (R64 to R71) -/

/-- Group 0: `00E0`, `00EE`, every other word is `SYS` (R66). -/
def decodeGroup0 (op : Word) : Instr :=
  match fieldNNN op with
  | 0x0E0#12 => .cls
  | 0x0EE#12 => .ret
  | nnn => .sys nnn

/-- Group 5 requires `n = 0` (R68). -/
def decodeGroup5 (op : Word) : Instr :=
  match fieldN op with
  | 0x0#4 => .seReg (fieldX op) (fieldY op)
  | _ => .unknown op

/-- Group 8: `n` selects the operation (R67). -/
def decodeGroup8 (op : Word) : Instr :=
  match fieldN op with
  | 0x0#4 => .ldReg (fieldX op) (fieldY op)
  | 0x1#4 => .orReg (fieldX op) (fieldY op)
  | 0x2#4 => .andReg (fieldX op) (fieldY op)
  | 0x3#4 => .xorReg (fieldX op) (fieldY op)
  | 0x4#4 => .addReg (fieldX op) (fieldY op)
  | 0x5#4 => .subReg (fieldX op) (fieldY op)
  | 0x6#4 => .shr (fieldX op) (fieldY op)
  | 0x7#4 => .subnReg (fieldX op) (fieldY op)
  | 0xE#4 => .shl (fieldX op) (fieldY op)
  | _ => .unknown op

/-- Group 9 requires `n = 0` (R68). -/
def decodeGroup9 (op : Word) : Instr :=
  match fieldN op with
  | 0x0#4 => .sneReg (fieldX op) (fieldY op)
  | _ => .unknown op

/-- Group E (R69). -/
def decodeGroupE (op : Word) : Instr :=
  match fieldKK op with
  | 0x9E#8 => .skp (fieldX op)
  | 0xA1#8 => .sknp (fieldX op)
  | _ => .unknown op

/-- Group F (R70). -/
def decodeGroupF (op : Word) : Instr :=
  match fieldKK op with
  | 0x07#8 => .ldVxDT (fieldX op)
  | 0x0A#8 => .ldVxK (fieldX op)
  | 0x15#8 => .ldDTVx (fieldX op)
  | 0x18#8 => .ldSTVx (fieldX op)
  | 0x1E#8 => .addIVx (fieldX op)
  | 0x29#8 => .ldFVx (fieldX op)
  | 0x33#8 => .ldBVx (fieldX op)
  | 0x55#8 => .ldMemVx (fieldX op)
  | 0x65#8 => .ldVxMem (fieldX op)
  | _ => .unknown op

/-- `Decode(op)`: every 16-bit word is some instruction (R64), whatever the state (R76). -/
def decodeWord (op : Word) : Instr :=
  match fieldC op with
  | 0x0#4 => decodeGroup0 op
  | 0x1#4 => .jp (fieldNNN op)
  | 0x2#4 => .call (fieldNNN op)
  | 0x3#4 => .seImm (fieldX op) (fieldKK op)
  | 0x4#4 => .sneImm (fieldX op) (fieldKK op)
  | 0x5#4 => decodeGroup5 op
  | 0x6#4 => .ldImm (fieldX op) (fieldKK op)
  | 0x7#4 => .addImm (fieldX op) (fieldKK op)
  | 0x8#4 => decodeGroup8 op
  | 0x9#4 => decodeGroup9 op
  | 0xA#4 => .ldI (fieldNNN op)
  | 0xB#4 => .jpV0 (fieldNNN op)
  | 0xC#4 => .rnd (fieldX op) (fieldKK op)
  | 0xD#4 => .drw (fieldX op) (fieldY op) (fieldN op)
  | 0xE#4 => decodeGroupE op
  | _ => decodeGroupF op

/-- Two bytes as a word, the byte at the lower address high (R46, R47). -/
def wordOfBytes (hi lo : Byte) : Word := hi ++ lo

/-- The high byte of a word, stored at the lower address (R47). -/
def hiByte (op : Word) : Byte := op.extractLsb' 8 8

/-- The low byte of a word, stored at the higher address (R47). -/
def loByte (op : Word) : Byte := op.extractLsb' 0 8

/-- Why a byte string holds no instruction: only for want of a byte, never for its bits (R64). -/
inductive DecodeError where
  /-- Fewer than the two bytes of an instruction (R60). -/
  | tooShort
  deriving DecidableEq, Repr

/-- The decoder on bytes: the instruction and the bytes after it (R60, R46). -/
def decode : List Byte → Except DecodeError (Instr × List Byte)
  | hi :: lo :: rest => .ok (decodeWord (wordOfBytes hi lo), rest)
  | _ => .error .tooShort

/-! ## The encoder (R62, R65) -/

/-- A register number as the four bits of an `x` or `y` field. -/
def regBits (r : Reg) : BitVec 4 := BitVec.ofFin r

/-- `c`, `nnn`: the `NNN` format (R62). -/
def formatNNN (c : BitVec 4) (nnn : BitVec 12) : Word := c ++ nnn

/-- `c`, `x`, `kk`: the `XKK` and `XSS` formats (R62). -/
def formatXKK (c : BitVec 4) (x : Reg) (kk : Byte) : Word := (c ++ regBits x : BitVec 8) ++ kk

/-- `c`, `x`, `y`, `n`: the `XYN` and `XYS` formats (R62). -/
def formatXYN (c : BitVec 4) (x y : Reg) (n : BitVec 4) : Word :=
  (c ++ regBits x : BitVec 8) ++ (regBits y ++ n : BitVec 8)

/-- The word of an instruction, from the patterns of R65. -/
def encode (i : Instr) : Word :=
  match i with
  | .cls => 0x00E0#16
  | .ret => 0x00EE#16
  | .sys nnn => formatNNN 0x0#4 nnn
  | .jp nnn => formatNNN 0x1#4 nnn
  | .call nnn => formatNNN 0x2#4 nnn
  | .seImm x kk => formatXKK 0x3#4 x kk
  | .sneImm x kk => formatXKK 0x4#4 x kk
  | .seReg x y => formatXYN 0x5#4 x y 0x0#4
  | .ldImm x kk => formatXKK 0x6#4 x kk
  | .addImm x kk => formatXKK 0x7#4 x kk
  | .ldReg x y => formatXYN 0x8#4 x y 0x0#4
  | .orReg x y => formatXYN 0x8#4 x y 0x1#4
  | .andReg x y => formatXYN 0x8#4 x y 0x2#4
  | .xorReg x y => formatXYN 0x8#4 x y 0x3#4
  | .addReg x y => formatXYN 0x8#4 x y 0x4#4
  | .subReg x y => formatXYN 0x8#4 x y 0x5#4
  | .shr x y => formatXYN 0x8#4 x y 0x6#4
  | .subnReg x y => formatXYN 0x8#4 x y 0x7#4
  | .shl x y => formatXYN 0x8#4 x y 0xE#4
  | .sneReg x y => formatXYN 0x9#4 x y 0x0#4
  | .ldI nnn => formatNNN 0xA#4 nnn
  | .jpV0 nnn => formatNNN 0xB#4 nnn
  | .rnd x kk => formatXKK 0xC#4 x kk
  | .drw x y n => formatXYN 0xD#4 x y n
  | .skp x => formatXKK 0xE#4 x 0x9E#8
  | .sknp x => formatXKK 0xE#4 x 0xA1#8
  | .ldVxDT x => formatXKK 0xF#4 x 0x07#8
  | .ldVxK x => formatXKK 0xF#4 x 0x0A#8
  | .ldDTVx x => formatXKK 0xF#4 x 0x15#8
  | .ldSTVx x => formatXKK 0xF#4 x 0x18#8
  | .addIVx x => formatXKK 0xF#4 x 0x1E#8
  | .ldFVx x => formatXKK 0xF#4 x 0x29#8
  | .ldBVx x => formatXKK 0xF#4 x 0x33#8
  | .ldMemVx x => formatXKK 0xF#4 x 0x55#8
  | .ldVxMem x => formatXKK 0xF#4 x 0x65#8
  | .unknown op => op

/-- The two bytes of an instruction as memory holds them (R47). -/
def instrBytes (i : Instr) : List Byte := [hiByte (encode i), loByte (encode i)]

/-! ## The opcode map (R65), independent of `decodeWord` -/

/-- A row of the opcode map: the word's bits under `mask` are `pattern`. -/
structure OpcodeRow where
  mask : Word
  pattern : Word
  mnemonic : String
  deriving DecidableEq, Repr

/-- Rows 1 to 12 of R65, with the mnemonics of spec/opcode_table.json. -/
def opcodeRows1 : List OpcodeRow :=
  [⟨0xFFFF#16, 0x00E0#16, "CLS"⟩,
   ⟨0xFFFF#16, 0x00EE#16, "RET"⟩,
   ⟨0xF000#16, 0x0000#16, "SYS_nnn"⟩,
   ⟨0xF000#16, 0x1000#16, "JP_nnn"⟩,
   ⟨0xF000#16, 0x2000#16, "CALL_nnn"⟩,
   ⟨0xF000#16, 0x3000#16, "SE_Vx__kk"⟩,
   ⟨0xF000#16, 0x4000#16, "SNE_Vx__kk"⟩,
   ⟨0xF00F#16, 0x5000#16, "SE_Vx__Vy"⟩,
   ⟨0xF000#16, 0x6000#16, "LD_Vx__kk"⟩,
   ⟨0xF000#16, 0x7000#16, "ADD_Vx__kk"⟩,
   ⟨0xF00F#16, 0x8000#16, "LD_Vx__Vy"⟩,
   ⟨0xF00F#16, 0x8001#16, "OR_Vx__Vy"⟩]

/-- Rows 13 to 24 of R65. -/
def opcodeRows2 : List OpcodeRow :=
  [⟨0xF00F#16, 0x8002#16, "AND_Vx__Vy"⟩,
   ⟨0xF00F#16, 0x8003#16, "XOR_Vx__Vy"⟩,
   ⟨0xF00F#16, 0x8004#16, "ADD_Vx__Vy"⟩,
   ⟨0xF00F#16, 0x8005#16, "SUB_Vx__Vy"⟩,
   ⟨0xF00F#16, 0x8006#16, "SHR_Vx"⟩,
   ⟨0xF00F#16, 0x8007#16, "SUBN_Vx__Vy"⟩,
   ⟨0xF00F#16, 0x800E#16, "SHL_Vx"⟩,
   ⟨0xF00F#16, 0x9000#16, "SNE_Vx__Vy"⟩,
   ⟨0xF000#16, 0xA000#16, "LD_I__nnn"⟩,
   ⟨0xF000#16, 0xB000#16, "JP_V0__nnn"⟩,
   ⟨0xF000#16, 0xC000#16, "RND_Vx__kk"⟩,
   ⟨0xF000#16, 0xD000#16, "DRW_Vx__Vy__n"⟩]

/-- Rows 25 to 36 of R65; the last matches every word. -/
def opcodeRows3 : List OpcodeRow :=
  [⟨0xF0FF#16, 0xE09E#16, "SKP_Vx"⟩,
   ⟨0xF0FF#16, 0xE0A1#16, "SKNP_Vx"⟩,
   ⟨0xF0FF#16, 0xF007#16, "LD_Vx__DT"⟩,
   ⟨0xF0FF#16, 0xF00A#16, "LD_Vx__K"⟩,
   ⟨0xF0FF#16, 0xF015#16, "LD_DT__Vx"⟩,
   ⟨0xF0FF#16, 0xF018#16, "LD_ST__Vx"⟩,
   ⟨0xF0FF#16, 0xF01E#16, "ADD_I__Vx"⟩,
   ⟨0xF0FF#16, 0xF029#16, "LD_F__Vx"⟩,
   ⟨0xF0FF#16, 0xF033#16, "LD_B__Vx"⟩,
   ⟨0xF0FF#16, 0xF055#16, "LD__I___Vx"⟩,
   ⟨0xF0FF#16, 0xF065#16, "LD_Vx___I"⟩,
   ⟨0x0000#16, 0x0000#16, "UNKNOWN"⟩]

/-- The opcode map in decode priority order (R65). -/
def opcodeRows : List OpcodeRow := opcodeRows1 ++ opcodeRows2 ++ opcodeRows3

/-- `(op & mask) = match` (R64). -/
def OpcodeRow.accepts (op : Word) (r : OpcodeRow) : Bool := op &&& r.mask == r.pattern

/-- The mnemonic of the first row that matches (R64). -/
def tableMnemonic (op : Word) : Option String :=
  (opcodeRows.find? (OpcodeRow.accepts op)).map OpcodeRow.mnemonic

/-- The mnemonic of an instruction, as spec/opcode_table.json spells it (R65, R73). -/
def Instr.mnemonic (i : Instr) : String :=
  match i with
  | .cls => "CLS"
  | .ret => "RET"
  | .sys _ => "SYS_nnn"
  | .jp _ => "JP_nnn"
  | .call _ => "CALL_nnn"
  | .seImm _ _ => "SE_Vx__kk"
  | .sneImm _ _ => "SNE_Vx__kk"
  | .seReg _ _ => "SE_Vx__Vy"
  | .ldImm _ _ => "LD_Vx__kk"
  | .addImm _ _ => "ADD_Vx__kk"
  | .ldReg _ _ => "LD_Vx__Vy"
  | .orReg _ _ => "OR_Vx__Vy"
  | .andReg _ _ => "AND_Vx__Vy"
  | .xorReg _ _ => "XOR_Vx__Vy"
  | .addReg _ _ => "ADD_Vx__Vy"
  | .subReg _ _ => "SUB_Vx__Vy"
  | .shr _ _ => "SHR_Vx"
  | .subnReg _ _ => "SUBN_Vx__Vy"
  | .shl _ _ => "SHL_Vx"
  | .sneReg _ _ => "SNE_Vx__Vy"
  | .ldI _ => "LD_I__nnn"
  | .jpV0 _ => "JP_V0__nnn"
  | .rnd _ _ => "RND_Vx__kk"
  | .drw _ _ _ => "DRW_Vx__Vy__n"
  | .skp _ => "SKP_Vx"
  | .sknp _ => "SKNP_Vx"
  | .ldVxDT _ => "LD_Vx__DT"
  | .ldVxK _ => "LD_Vx__K"
  | .ldDTVx _ => "LD_DT__Vx"
  | .ldSTVx _ => "LD_ST__Vx"
  | .addIVx _ => "ADD_I__Vx"
  | .ldFVx _ => "LD_F__Vx"
  | .ldBVx _ => "LD_B__Vx"
  | .ldMemVx _ => "LD__I___Vx"
  | .ldVxMem _ => "LD_Vx___I"
  | .unknown _ => "UNKNOWN"

/-! ## The table's numbering of an instruction's bits -/

/-- An instruction whose low `nbits` bits are `w`, the bits above being 0. -/
def tableWord (nbits w : Nat) : Word := BitVec.ofNat 16 (w % 2 ^ nbits)

/-- The instruction the decoder reads from the bytes of that word, high byte first (R47). -/
def decodeTableWord (nbits w : Nat) : Option Instr :=
  match decode [hiByte (tableWord nbits w), loByte (tableWord nbits w)] with
  | .ok (i, _) => some i
  | .error _ => none

end Sys2Proof
end

