-- ==== Sys2Proof/Config.lean ====
section
/-! DEFINITION. The sizes the spec fixes (00_scope.md R4) and the values it leaves free (93_implementation_defined.md
I1 to I4). A free value has no body: nothing can be proved about which value it is. The font table, a constant with a
default (R42), stands in Sys2Proof/Machine/Font.lean. -/

namespace Sys2Proof

/-- The arguments of a `cycle` call (R20, R21). -/
structure CycleInput where
  /-- `KEYS` (R20). -/
  keys : Keys
  /-- `rnd` (R21). -/
  rnd : Byte
  deriving DecidableEq, Repr, Inhabited

/-- One call of the host (R25, R184). -/
inductive HostCall where
  /-- `cycle(KEYS, rnd)`. -/
  | cycle (input : CycleInput)
  /-- `tick_timers()`. -/
  | tick
  /-- `reset_load(rom)`. -/
  | resetLoad (rom : List Byte)
  deriving DecidableEq, Repr, Inhabited

namespace Config

/-- Bytes of memory (R4, R40). -/
abbrev memSize : Nat := 4096

/-- Entries of the return-address stack (R4, R14). -/
abbrev stackDepth : Nat := 16

/-- Where a program is loaded and entered (R4, R191). -/
abbrev progBase : Nat := 0x200

/-- Bytes of the font table (R4, R41). -/
abbrev fontLen : Nat := 80

/-- Bytes of one glyph, the factor of `LD F, Vx` (R4, R122). -/
abbrev fontStride : Nat := 5

/-- Columns of the framebuffer (R4, R132). -/
abbrev fbWidth : Nat := 64

/-- Rows of the framebuffer (R4, R132). -/
abbrev fbHeight : Nat := 32

/-- Keys of the keypad (R4, R20). -/
abbrev numKeys : Nat := 16

/-- The host's call where no list of State fixes it: any of the three, with any arguments, in any order (R25, R184, I4; log 1).
Free. -/
opaque freeCall : Nat → HostCall

/-- The arguments of the `cycle` under which a placed instruction runs (R20, R21, I2, I3; logs 2, 29). Free. -/
opaque freeInput : Nat → CycleInput

/-- The general registers after a fatal error (R168, I1; log 5). Free. -/
opaque unspecV : Nat → Vector Byte 16

/-- `I` after a fatal error (R168, I1; log 5). Free. -/
opaque unspecI : Nat → Word

/-- `PC` after a fatal error (R168, I1; log 5). Free. -/
opaque unspecPC : Nat → Word

/-- `STACK` after a fatal error, a seventeenth entry not excluded (R168, I1; log 5). Free. -/
opaque unspecStack : Nat → List Word

/-- Each byte of memory after a fatal error (R168, I1; log 5). Free. -/
opaque unspecMem : Nat → Nat → Byte

/-- The framebuffer after a fatal error (R168, I1; log 5). Free. -/
opaque unspecFB : Nat → Framebuffer

/-- `DT` after a fatal error (R168, I1; log 5). Free. -/
opaque unspecDT : Nat → Byte

/-- `ST` after a fatal error (R168, I1; log 5). Free. -/
opaque unspecST : Nat → Byte

end Config

end Sys2Proof
end

