-- ==== Sys2Proof/Machine/Font.lean ====
section
/-! DEFINITION. The font table `FONT`, a configuration constant (20_memory.md R42). The spec marks the 80 bytes as general
knowledge, not in its source: PRESUMED, log 6. Only the reset content of 0x000 to 0x04F depends on them. -/

namespace Sys2Proof.Config

/-- Glyphs of the digits 0 to 7 (R42). -/
def fontGlyphs0to7 : List Byte :=
  [0xF0, 0x90, 0x90, 0x90, 0xF0] ++ [0x20, 0x60, 0x20, 0x20, 0x70] ++
  [0xF0, 0x10, 0xF0, 0x80, 0xF0] ++ [0xF0, 0x10, 0xF0, 0x10, 0xF0] ++
  [0x90, 0x90, 0xF0, 0x10, 0x10] ++ [0xF0, 0x80, 0xF0, 0x10, 0xF0] ++
  [0xF0, 0x80, 0xF0, 0x90, 0xF0] ++ [0xF0, 0x10, 0x20, 0x40, 0x40]

/-- Glyphs of the digits 8 to F (R42). -/
def fontGlyphs8toF : List Byte :=
  [0xF0, 0x90, 0xF0, 0x90, 0xF0] ++ [0xF0, 0x90, 0xF0, 0x10, 0xF0] ++
  [0xF0, 0x90, 0xF0, 0x90, 0x90] ++ [0xE0, 0x90, 0xE0, 0x90, 0xE0] ++
  [0xF0, 0x80, 0x80, 0x80, 0xF0] ++ [0xE0, 0x90, 0x90, 0x90, 0xE0] ++
  [0xF0, 0x80, 0xF0, 0x80, 0xF0] ++ [0xF0, 0x80, 0xF0, 0x80, 0x80]

/-- `FONT[0..=79]` (R42). -/
def font : List Byte := fontGlyphs0to7 ++ fontGlyphs8toF

end Sys2Proof.Config
end

