-- ==== Sys2Proof/Machine/State.lean ====
section
/-! DEFINITION. The state of the machine (10_state.md R10 to R19, R22), the host's calls to come (R25), and the state after reset
(R31). STATE IS PLAIN DATA: no field holds a function. -/

namespace Sys2Proof.Machine

/-- The kinds of fatal error (60_exceptions.md R160). The spec describes what taking one does (R167), so a fatal error is
TAKEN: a next state with `RUN = Halted` and the `FAULT` record. No step and no meaning answers `Outcome.fault`. -/
inductive Fault where
  /-- `CALL` with 16 entries on the stack (R161, code 1). Raised by `execCall`. Safe: it is the spec's own error. -/
  | stackOverflow
  /-- `RET` with an empty stack (R162, code 2). Raised by `execRet`. Safe: it is the spec's own error. -/
  | stackUnderflow
  /-- An address of 4096 or more (R163, code 3). Raised by the fetch, `DRW`, `LD B`, `LD [I]`, `LD Vx, [I]`. Safe: it is the
  spec's own error. -/
  | addressOutOfRange
  deriving DecidableEq, Repr

/-- Why a step has no meaning. -/
inductive Refusal where
  /-- An instruction without a meaning yet; raised by `exec`'s arm of that instruction, by none at present. Safe. -/
  | notModelled (mnemonic : String)
  /-- `reset_load` of a ROM of more than 3584 bytes: no machine comes into being (R166, I11). Raised by `resetLoad`, a call of
  the host, by no instruction. Safe. -/
  | romTooLarge
  deriving DecidableEq, Repr

/-- The run state `RUN` (R18). -/
inductive Run where
  | running
  /-- Suspended on `LD Vx, K` until a key is pressed; the key's index goes to register `r`. -/
  | awaitingKey (r : Reg)
  /-- After a fatal error; never a successful end of a run (R29). -/
  | halted
  deriving DecidableEq, Repr

/-- The fault record `FAULT` (R19). -/
structure FaultRecord where
  /-- `FAULT.kind`. -/
  kind : Fault
  /-- `FAULT.pc`, the address the faulting instruction was fetched from. -/
  pc : Word
  /-- `FAULT.opcode`, no value for a fetch fault. -/
  opcode : Option Word
  deriving DecidableEq, Repr

/-- Main memory as the addresses that differ from what an unlisted address reads as, strictly rising (R15; log 25). -/
abbrev Memory := List Host.Cell

/-- The state of the machine. -/
structure State where
  /-- `V[0]` to `V[15]` (R10); `v[15]` is `VF` (R11). -/
  v : Vector Byte 16
  /-- `I` (R12). -/
  i : Word
  /-- `PC` (R13). -/
  pc : Word
  /-- `STACK`, the top last (R14). -/
  stack : List Word
  /-- `MEM` (R15). -/
  mem : Memory
  /-- `FB` (R16). -/
  fb : Framebuffer
  /-- `DT` (R17). -/
  dt : Byte
  /-- `ST` (R17). -/
  st : Byte
  /-- `RUN` (R18). -/
  run : Run
  /-- `FAULT` (R19). -/
  fault : Option FaultRecord
  /-- `display_updated` (R22). -/
  displayUpdated : Bool
  /-- The MODEL's own: the host's calls to come, oldest first (R25; log 1). -/
  calls : List HostCall
  /-- The MODEL's own: the calls the host makes over and over once `calls` is used up; where it is empty, every later call is free
  (R25, R198; log 1). -/
  again : List HostCall
  /-- The MODEL's own: the arguments of the `cycle` in progress (R20, R21; log 2). -/
  now : CycleInput
  /-- The MODEL's own: a counter of calls that indexes the free values of Config (log 2). -/
  draws : Nat
  deriving DecidableEq, Repr

/-- The machine right after `reset_load` of the empty ROM (R31, R190, R192). The values of the model's own fields are DESIGN
CHOICE (logs 1 and 2). -/
def State.reset : State where
  v := Vector.replicate 16 0
  i := 0x0000
  pc := 0x0200
  stack := []
  mem := []
  fb := 0
  dt := 0
  st := 0
  run := .running
  fault := none
  displayUpdated := false
  calls := []
  again := []
  now := { keys := 0, rnd := 0 }
  draws := 0

end Sys2Proof.Machine
end

