-- ==== Sys2Proof/Machine/Ops.lean ====
section
/-! DEFINITION. The named operations over memory, registers, the stack, the framebuffer and the keypad, the fetch, and the one
fatal-error entry. -/

namespace Sys2Proof.Machine

/-! ## Memory (20_memory.md R40 to R47, R51, R56) -/

/-- What an address that is not listed reads as: the reset content with no ROM, `FONT` from 0x000, else 0 (R31, R41). -/
def Memory.unlisted (a : Nat) : Byte := if a < Config.fontLen then Config.font.getD a 0 else 0

/-- `MEM[a]`. -/
def Memory.read : Memory → Nat → Byte
  | [], a => Memory.unlisted a
  | (k, b) :: m, a => if a = k then b else Memory.read m a

/-- `MEM[a] <- b`, keeping the canonical form: an entry is listed only where it differs from `unlisted`. -/
def Memory.write : Memory → Nat → Byte → Memory
  | [], a, b => if b = Memory.unlisted a then [] else [(a, b)]
  | (k, c) :: m, a, b =>
    if a < k then
      if b = Memory.unlisted a then (k, c) :: m else (a, b) :: (k, c) :: m
    else if a = k then
      if b = Memory.unlisted a then m else (a, b) :: m
    else (k, c) :: Memory.write m a b

/-- The canonical form: addresses strictly rising and below 4096, no entry equal to what an unlisted address reads as. -/
abbrev Memory.wf (m : Memory) : Prop :=
  m.Pairwise (fun p q => p.1 < q.1) ∧ ∀ p ∈ m, p.1 < Config.memSize ∧ p.2 ≠ Memory.unlisted p.1

/-- The canonical memory that holds `f a` at every address `a`. -/
def Memory.ofFn (f : Nat → Byte) : Memory :=
  (List.range Config.memSize).filterMap fun a =>
    if f a = Memory.unlisted a then none else some (a, f a)

/-- `MemRead(addr, 1)` (R43). -/
def memRead (m : Memory) (a : Nat) : Except Fault Byte :=
  if a < Config.memSize then .ok (m.read a) else .error .addressOutOfRange

/-- `MemWrite(addr, 1, v)` (R44). No region is protected (R45). -/
def memWrite (m : Memory) (a : Nat) (b : Byte) : Except Fault Memory :=
  if a < Config.memSize then .ok (m.write a b) else .error .addressOutOfRange

/-- `n` checked byte reads from `a` upward, in ascending order (R126, R56). -/
def memReadBytes (m : Memory) (a : Nat) : Nat → Except Fault (List Byte)
  | 0 => .ok []
  | n + 1 =>
    match memRead m a with
    | .error k => .error k
    | .ok b =>
      match memReadBytes m (a + 1) n with
      | .error k => .error k
      | .ok bs => .ok (b :: bs)

/-- Checked byte writes from `a` upward, in ascending order (R126, R56). -/
def memWriteBytes (m : Memory) (a : Nat) : List Byte → Except Fault Memory
  | [] => .ok m
  | b :: bs =>
    match memWrite m a b with
    | .error k => .error k
    | .ok m' => memWriteBytes m' (a + 1) bs

/-! ## Registers (10_state.md R10 to R13) -/

/-- `V[x]`. -/
def State.reg (s : State) (x : Reg) : Byte := s.v.get x

/-- `V[x] <- b`. -/
def State.setReg (s : State) (x : Reg) (b : Byte) : State := { s with v := s.v.set x.val b x.isLt }

/-- The bytes written to registers `k`, `k + 1`, … in ascending order (44_mem_index.md R125). -/
def setRegsFrom (v : Vector Byte 16) (k : Nat) : List Byte → Vector Byte 16
  | [] => v
  | b :: bs => setRegsFrom (v.setIfInBounds k b) (k + 1) bs

/-- `V[i] <- bytes[i]` for each byte, from `V[0]` on; the other registers are kept (R125). -/
def State.loadRegs (s : State) (bytes : List Byte) : State := { s with v := setRegsFrom s.v 0 bytes }

/-- `V[0]` to `V[x]` in order (R124). -/
def State.regsUpTo (s : State) (x : Reg) : List Byte := s.v.toList.take (x.val + 1)

/-- `skip`: `PC <- PC + 2` on top of the fetch advance (41_cond_skip.md R96). -/
def State.skip (s : State) : State := { s with pc := s.pc + 2 }

/-- `skip` when the condition holds (R96). -/
def State.skipIf (s : State) (c : Bool) : State := if c then s.skip else s

/-! ## Framebuffer (45_display.md R132) -/

/-- `FB[k]`. -/
def fbGet (fb : Framebuffer) (k : Nat) : Bool := fb.getLsbD k

/-- `FB[k] <- b`. -/
def fbSet (fb : Framebuffer) (k : Nat) (b : Bool) : Framebuffer :=
  if b then fb ||| BitVec.twoPow 2048 k else fb &&& ~~~ BitVec.twoPow 2048 k

/-! ## Inputs of the cycle (10_state.md R20, R21) -/

/-- `KEYS` of the cycle in progress (R20; log 2). -/
def State.keysNow (s : State) : Keys := s.now.keys

/-- `rnd` of the cycle in progress (R21; log 2). -/
def State.rndNow (s : State) : Byte := s.now.rnd

/-- The lowest pressed key, scanning indices 0 to 15 in ascending order (R27). -/
def lowestKey (keys : Keys) : Option Nat := (List.range Config.numKeys).find? fun k => keys.getLsbD k

/-! ## The fatal-error entry (60_exceptions.md R167, R168) -/

/-- Every piece of state whose value is unspecified after a fatal error takes a free value (R168, I1; log 5). -/
def State.unspecified (s : State) : State :=
  { s with
    v := Config.unspecV s.draws
    i := Config.unspecI s.draws
    pc := Config.unspecPC s.draws
    stack := Config.unspecStack s.draws
    mem := Memory.ofFn (Config.unspecMem s.draws)
    fb := Config.unspecFB s.draws
    dt := Config.unspecDT s.draws
    st := Config.unspecST s.draws }

/-- `raise K(info)` (R167): `pc0` is the address of the faulting instruction, `op` its opcode where one was formed. -/
def State.raise (s : State) (k : Fault) (pc0 : Word) (op : Option Word) : State :=
  { s.unspecified with
    run := .halted
    fault := some { kind := k, pc := pc0, opcode := op }
    displayUpdated := false }

/-- `raise` inside the meaning of the instruction `i`: its address is `PC - 2`, since the fetch has advanced `PC` (R13), and its
opcode is its word (log 17). -/
def State.raiseIn (s : State) (i : Instr) (k : Fault) : State := s.raise k (s.pc - 2) (some (encode i))

/-- The end of a meaning whose accesses may raise: the state reached, or the fatal-error entry. -/
def State.commit (s : State) (i : Instr) (r : Except Fault State) : Host.Outcome State Fault Refusal :=
  match r with
  | .ok t => .next t
  | .error k => .next (s.raiseIn i k)

/-! ## Fetch (20_memory.md R46) -/

/-- `Fetch()`: the opcode and the state with `PC` advanced by 2. `PC` is checked before and after (R46; log 19). -/
def State.fetch (s : State) : Except Fault (Word × State) :=
  if s.pc.toNat ≥ Config.memSize then .error .addressOutOfRange
  else
    match memRead s.mem s.pc.toNat with
    | .error k => .error k
    | .ok hi =>
      match memRead s.mem (s.pc.toNat + 1) with
      | .error k => .error k
      | .ok lo =>
        if (s.pc + 2).toNat ≥ Config.memSize then .error .addressOutOfRange
        else .ok (wordOfBytes hi lo, { s with pc := s.pc + 2 })

end Sys2Proof.Machine
end

