-- ==== Sys2Proof/Machine/Operands.lean ====
section
/-! DEFINITION. The operand forms (30_encoding.md R61, R63; 44_mem_index.md R126; 41_cond_skip.md R94; 45_display.md R131). A
register operand is `State.reg`, an 8-bit immediate is the byte itself. -/

namespace Sys2Proof.Machine

/-- `zext_16(nnn)`: an address immediate (R63). -/
def addrImm (nnn : BitVec 12) : Word := nnn.setWidth 16

/-- `zext_16(V[x])` (R84, R121, R122). -/
def State.regWide (s : State) (x : Reg) : Word := (s.reg x).setWidth 16

/-- The effective address `I + k`, a natural number that never wraps (R56, R126). -/
def State.effAddr (s : State) (k : Nat) : Nat := s.i.toNat + k

/-- The key index of `SKP` and `SKNP`: `V[x][3:0]` (R94; log 14). -/
def State.keyIndex (s : State) (x : Reg) : Nat := ((s.reg x).extractLsb' 0 4).toNat

/-- Whether the key selected by `V[x]` is pressed in this cycle's snapshot (R94, R20). -/
def State.keyPressed (s : State) (x : Reg) : Bool := s.keysNow.getLsbD (s.keyIndex x)

/-- The start column of `DRW`: `V[x] & 63` (R131). -/
def State.drawX (s : State) (x : Reg) : Nat := (s.reg x &&& 63).toNat

/-- The start row of `DRW`: `V[y] & 31` (R131). -/
def State.drawY (s : State) (y : Reg) : Nat := (s.reg y &&& 31).toNat

/-- The cell of sprite row `row` and column `col`: both coordinates wrap (R131). -/
def cellIndex (x0 y0 row col : Nat) : Nat :=
  (y0 + row) % Config.fbHeight * Config.fbWidth + (x0 + col) % Config.fbWidth

/-- Sprite column `col` of a row byte: column 0 is bit 7 (R131, R47). -/
def spriteBit (b : Byte) (col : Nat) : Bool := b.getLsbD (7 - col)

end Sys2Proof.Machine
end

