-- ==== Sys2Proof/Machine/CondSkip.lean ====
section
/-! DEFINITION. Conditional-skip instructions (41_cond_skip.md). A taken skip adds 2 to the advanced `PC` (R96). -/

namespace Sys2Proof.Machine

/-- `SE Vx, kk` (R90). -/
def execSeImm (x : Reg) (kk : Byte) (s : State) : Host.Outcome State Fault Refusal :=
  .next (s.skipIf (s.reg x == kk))

/-- `SNE Vx, kk` (R91). -/
def execSneImm (x : Reg) (kk : Byte) (s : State) : Host.Outcome State Fault Refusal :=
  .next (s.skipIf (s.reg x != kk))

/-- `SE Vx, Vy` (R92). -/
def execSeReg (x y : Reg) (s : State) : Host.Outcome State Fault Refusal :=
  .next (s.skipIf (s.reg x == s.reg y))

/-- `SNE Vx, Vy` (R93). -/
def execSneReg (x y : Reg) (s : State) : Host.Outcome State Fault Refusal :=
  .next (s.skipIf (s.reg x != s.reg y))

/-- `SKP Vx` (R94). -/
def execSkp (x : Reg) (s : State) : Host.Outcome State Fault Refusal := .next (s.skipIf (s.keyPressed x))

/-- `SKNP Vx` (R95). -/
def execSknp (x : Reg) (s : State) : Host.Outcome State Fault Refusal := .next (s.skipIf (!s.keyPressed x))

end Sys2Proof.Machine
end

