-- ==== Sys2Proof/Machine/ControlFlow.lean ====
section
/-! DEFINITION. Control-flow instructions (40_control_flow.md). `PC` is already the instruction's address plus 2 (R13). A target is
not range-checked when written (R85). -/

namespace Sys2Proof.Machine

/-- `SYS nnn`: a legacy no-op (R80); logging is not modelled (log 24). -/
def execSys (_nnn : BitVec 12) (s : State) : Host.Outcome State Fault Refusal := .next s

/-- `RET` (R81): pop into `PC`; an empty stack raises `StackUnderflow` (R162). -/
def execRet (s : State) : Host.Outcome State Fault Refusal :=
  match s.stack.getLast? with
  | none => .next (s.raiseIn .ret .stackUnderflow)
  | some a => .next { s with pc := a, stack := s.stack.dropLast }

/-- `JP nnn` (R82). -/
def execJp (nnn : BitVec 12) (s : State) : Host.Outcome State Fault Refusal :=
  .next { s with pc := addrImm nnn }

/-- `CALL nnn` (R83): push the advanced `PC`; a full stack raises `StackOverflow` (R161; depth above 16 is not reached, log
26). -/
def execCall (nnn : BitVec 12) (s : State) : Host.Outcome State Fault Refusal :=
  if s.stack.length ≥ Config.stackDepth then .next (s.raiseIn (.call nnn) .stackOverflow)
  else .next { s with stack := s.stack ++ [s.pc], pc := addrImm nnn }

/-- `JP V0, nnn` (R84): the sum is neither wrapped nor masked (log 8). -/
def execJpV0 (nnn : BitVec 12) (s : State) : Host.Outcome State Fault Refusal :=
  .next { s with pc := addrImm nnn + s.regWide 0 }

end Sys2Proof.Machine
end

