-- ==== Sys2Proof/Machine/Flags.lean ====
section
/-! DEFINITION. Every value `VF` takes as a flag (10_state.md R11; 43_reg_reg.md R114, R115; 45_display.md R131). -/

namespace Sys2Proof.Machine

/-- A flag is exactly 0 or 1 (R114). -/
def flagByte (b : Bool) : Byte := if b then 1 else 0

/-- The carry of `a + b`: the unsigned sum exceeds 255 (R115, R109). -/
def carryFlag (a b : Byte) : Byte := flagByte (a.toNat + b.toNat > 255)

/-- No borrow of `a - b`: 0 when `a < b` unsigned, else 1; equal operands do not borrow (R115, R110, R112). -/
def noBorrowFlag (a b : Byte) : Byte := flagByte (!decide (a.toNat < b.toNat))

/-- The bit shifted out to the right: bit 0 (R111). -/
def shiftedOutRight (a : Byte) : Byte := flagByte (a.getLsbD 0)

/-- The bit shifted out to the left: bit 7 (R113). -/
def shiftedOutLeft (a : Byte) : Byte := flagByte (a.getLsbD 7)

/-- The collision flag of `DRW`: 1 when some lit cell met a sprite bit 1 (R131). -/
def collisionFlag (hit : Bool) : Byte := flagByte hit

end Sys2Proof.Machine
end

