-- ==== Sys2Proof/Machine/Display.lean ====
section
/-! DEFINITION. Display instructions, the only writers of the framebuffer (45_display.md R130 to R133). -/

namespace Sys2Proof.Machine

/-- The framebuffer and whether a lit cell has met a sprite bit 1 so far. -/
structure Canvas where
  fb : Framebuffer
  hit : Bool
  deriving DecidableEq, Repr

/-- One cell of a sprite (R131): XOR, and a hit when both the old cell and the bit are 1. -/
def drawCell (c : Canvas) (k : Nat) (bit : Bool) : Canvas :=
  { fb := fbSet c.fb k (fbGet c.fb k ^^ bit), hit := c.hit || (fbGet c.fb k && bit) }

/-- The eight columns of sprite row `row` with byte `b`, leftmost first (R131). -/
def drawRow (x0 y0 row : Nat) (b : Byte) (c : Canvas) : Canvas :=
  (List.range 8).foldl (fun c col => drawCell c (cellIndex x0 y0 row col) (spriteBit b col)) c

/-- `n` sprite rows from row `row` on, row `r` read at `base + r`, in ascending order (R131). -/
def drawRows (m : Memory) (base x0 y0 : Nat) : Nat → Nat → Canvas → Except Fault Canvas
  | _, 0, c => .ok c
  | row, n + 1, c =>
    match memRead m (base + row) with
    | .error k => .error k
    | .ok b => drawRows m base x0 y0 (row + 1) n (drawRow x0 y0 row b c)

/-- `CLS` (R130). -/
def execCls (s : State) : Host.Outcome State Fault Refusal := .next { s with fb := 0, displayUpdated := true }

/-- `DRW Vx, Vy, n` (R131): the coordinates are read before `VF` is written (log 21). -/
def execDrw (x y : Reg) (n : BitVec 4) (s : State) : Host.Outcome State Fault Refusal :=
  s.commit (.drw x y n)
    (match drawRows s.mem (s.effAddr 0) (s.drawX x) (s.drawY y) 0 n.toNat { fb := s.fb, hit := false } with
    | .ok c => .ok { s.setReg VF (collisionFlag c.hit) with fb := c.fb, displayUpdated := true }
    | .error k => .error k)

end Sys2Proof.Machine
end

