-- ==== Sys2Proof/Machine/MemIndex.lean ====
section
/-! DEFINITION. Memory and index instructions (44_mem_index.md). `I` is changed by no load and no store (R126). -/

namespace Sys2Proof.Machine

/-- `LD I, nnn` (R120). -/
def execLdI (nnn : BitVec 12) (s : State) : Host.Outcome State Fault Refusal := .next { s with i := addrImm nnn }

/-- `ADD I, Vx` (R121): modulo 65536, no flag (log 12). -/
def execAddIVx (x : Reg) (s : State) : Host.Outcome State Fault Refusal := .next { s with i := s.i + s.regWide x }

/-- `LD F, Vx` (R122): `V[x] * 5` on the whole byte (log 13). -/
def execLdFVx (x : Reg) (s : State) : Host.Outcome State Fault Refusal :=
  .next { s with i := s.regWide x * BitVec.ofNat 16 Config.fontStride }

/-- The decimal digits of a byte, hundreds first (R123). -/
def bcdDigits (b : Byte) : List Byte :=
  [BitVec.ofNat 8 (b.toNat / 100), BitVec.ofNat 8 (b.toNat / 10 % 10), BitVec.ofNat 8 (b.toNat % 10)]

/-- Store bytes at `I`, `I + 1`, … (R126). -/
def State.storeAtI (s : State) (bytes : List Byte) : Except Fault State :=
  match memWriteBytes s.mem (s.effAddr 0) bytes with
  | .ok m => .ok { s with mem := m }
  | .error k => .error k

/-- `LD B, Vx` (R123). -/
def execLdBVx (x : Reg) (s : State) : Host.Outcome State Fault Refusal :=
  s.commit (.ldBVx x) (s.storeAtI (bcdDigits (s.reg x)))

/-- `LD [I], Vx` (R124). -/
def execLdMemVx (x : Reg) (s : State) : Host.Outcome State Fault Refusal :=
  s.commit (.ldMemVx x) (s.storeAtI (s.regsUpTo x))

/-- `V[0]` to `V[x]` loaded from `I`, `I + 1`, … (R125). -/
def State.loadAtI (s : State) (x : Reg) : Except Fault State :=
  match memReadBytes s.mem (s.effAddr 0) (x.val + 1) with
  | .ok bytes => .ok (s.loadRegs bytes)
  | .error k => .error k

/-- `LD Vx, [I]` (R125). -/
def execLdVxMem (x : Reg) (s : State) : Host.Outcome State Fault Refusal :=
  s.commit (.ldVxMem x) (s.loadAtI x)

end Sys2Proof.Machine
end

