-- ==== Sys2Proof/Machine/RandomKeywait.lean ====
section
/-! DEFINITION. Random and key-wait instructions (47_random_keywait.md). -/

namespace Sys2Proof.Machine

/-- `RND Vx, kk` (R145): `rnd` is any byte (log 2). -/
def execRnd (x : Reg) (kk : Byte) (s : State) : Host.Outcome State Fault Refusal :=
  .next (s.setReg x (s.rndNow &&& kk))

/-- `LD Vx, K` (R146): sets the await marker, looks at no key, writes no register (log 15). -/
def execLdVxK (x : Reg) (s : State) : Host.Outcome State Fault Refusal := .next { s with run := .awaitingKey x }

end Sys2Proof.Machine
end

