-- ==== Sys2Proof/Machine/RegImmediate.lean ====
section
/-! DEFINITION. Register-immediate instructions (42_reg_immediate.md). -/

namespace Sys2Proof.Machine

/-- `LD Vx, kk` (R100). -/
def execLdImm (x : Reg) (kk : Byte) (s : State) : Host.Outcome State Fault Refusal := .next (s.setReg x kk)

/-- `ADD Vx, kk` (R101): modulo 256, no carry flag (log 11). -/
def execAddImm (x : Reg) (kk : Byte) (s : State) : Host.Outcome State Fault Refusal :=
  .next (s.setReg x (s.reg x + kk))

end Sys2Proof.Machine
end

