-- ==== Sys2Proof/Machine/RegReg.lean ====
section
/-! DEFINITION. Register-register instructions (43_reg_reg.md). Sources are read first; a flag is written BEFORE the destination
(R114, R116; log 9), so with `x = 15` the result, not the flag, remains. -/

namespace Sys2Proof.Machine

/-- `VF` written first, the destination last (R114). -/
def State.setFlagThen (s : State) (flag : Byte) (x : Reg) (b : Byte) : State := (s.setReg VF flag).setReg x b

/-- `LD Vx, Vy` (R105). -/
def execLdReg (x y : Reg) (s : State) : Host.Outcome State Fault Refusal := .next (s.setReg x (s.reg y))

/-- `OR Vx, Vy` (R106); `VF` is not touched. -/
def execOrReg (x y : Reg) (s : State) : Host.Outcome State Fault Refusal :=
  .next (s.setReg x (s.reg x ||| s.reg y))

/-- `AND Vx, Vy` (R107); `VF` is not touched. -/
def execAndReg (x y : Reg) (s : State) : Host.Outcome State Fault Refusal :=
  .next (s.setReg x (s.reg x &&& s.reg y))

/-- `XOR Vx, Vy` (R108); `VF` is not touched. -/
def execXorReg (x y : Reg) (s : State) : Host.Outcome State Fault Refusal :=
  .next (s.setReg x (s.reg x ^^^ s.reg y))

/-- `ADD Vx, Vy` (R109). -/
def execAddReg (x y : Reg) (s : State) : Host.Outcome State Fault Refusal :=
  .next (s.setFlagThen (carryFlag (s.reg x) (s.reg y)) x (s.reg x + s.reg y))

/-- `SUB Vx, Vy` (R110). -/
def execSubReg (x y : Reg) (s : State) : Host.Outcome State Fault Refusal :=
  .next (s.setFlagThen (noBorrowFlag (s.reg x) (s.reg y)) x (s.reg x - s.reg y))

/-- `SHR Vx` (R111): the second statement reads `V[x]` after `VF` is written; `y` is ignored (log 10). -/
def execShr (x _y : Reg) (s : State) : Host.Outcome State Fault Refusal :=
  let s1 := s.setReg VF (shiftedOutRight (s.reg x))
  .next (s1.setReg x (s1.reg x >>> 1))

/-- `SUBN Vx, Vy` (R112). -/
def execSubnReg (x y : Reg) (s : State) : Host.Outcome State Fault Refusal :=
  .next (s.setFlagThen (noBorrowFlag (s.reg y) (s.reg x)) x (s.reg y - s.reg x))

/-- `SHL Vx` (R113): the second statement reads `V[x]` after `VF` is written; `y` is ignored (log 10). -/
def execShl (x _y : Reg) (s : State) : Host.Outcome State Fault Refusal :=
  let s1 := s.setReg VF (shiftedOutLeft (s.reg x))
  .next (s1.setReg x (s1.reg x <<< 1))

end Sys2Proof.Machine
end

