-- ==== Sys2Proof/Machine/Timers.lean ====
section
/-! DEFINITION. Timer instructions (46_timers.md). None decrements a timer; the tick does (60_exceptions.md R174, R176). -/

namespace Sys2Proof.Machine

/-- `LD Vx, DT` (R140). -/
def execLdVxDT (x : Reg) (s : State) : Host.Outcome State Fault Refusal := .next (s.setReg x s.dt)

/-- `LD DT, Vx` (R141). -/
def execLdDTVx (x : Reg) (s : State) : Host.Outcome State Fault Refusal := .next { s with dt := s.reg x }

/-- `LD ST, Vx` (R142). -/
def execLdSTVx (x : Reg) (s : State) : Host.Outcome State Fault Refusal := .next { s with st := s.reg x }

end Sys2Proof.Machine
end

