-- ==== Sys2Proof/Machine/Unknown.lean ====
section
/-! DEFINITION. The `Unknown` variant (48_unknown.md R150). -/

namespace Sys2Proof.Machine

/-- `UNKNOWN`: a no-op; `PC` is already advanced (R150, R71); logging is not modelled (log 24). -/
def execUnknown (_op : Word) (s : State) : Host.Outcome State Fault Refusal := .next s

end Sys2Proof.Machine
end

