-- ==== Sys2Proof/Machine/Cycle.lean ====
section
/-! DEFINITION. The three operations of the machine (10_state.md R25 to R29; 60_exceptions.md R174; 70_reset_and_hazards.md R190),
its outputs (R22 to R24), and how an instruction is placed where the next cycle fetches it. -/

namespace Sys2Proof.Machine

/-! ## `cycle` -/

/-- The start of a `cycle` that `Halted` does not refuse: `display_updated <- 0` (R26, R22) and the call's arguments (R20, R21). -/
def State.beginCycle (s : State) (input : CycleInput) : State := { s with displayUpdated := false, now := input }

/-- The `AwaitingKey(r)` branch (R27): the lowest pressed key ends the wait; no fetch (log 15). -/
def State.keyCapture (s : State) (r : Reg) : State :=
  match lowestKey s.keysNow with
  | some k => { s.setReg r (BitVec.ofNat 8 k) with run := .running }
  | none => s

/-- The `Running` branch (R28). A fetch fault has no opcode (R163, R19; log 18). -/
def State.fetchDecodeExecute (s : State) : Host.Outcome State Fault Refusal :=
  match s.fetch with
  | .error k => .next (s.raise k s.pc none)
  | .ok (op, s') => exec (decodeWord op) s'

/-- `cycle(KEYS, rnd)` (R26): the branch is chosen by `RUN` at entry; in `Halted` nothing changes (R29). -/
def State.cycle (s : State) (input : CycleInput) : Host.Outcome State Fault Refusal :=
  match s.run with
  | .halted => .next s
  | .awaitingKey r => .next ((s.beginCycle input).keyCapture r)
  | .running => (s.beginCycle input).fetchDecodeExecute

/-! ## `tick_timers` (R174) -/

/-- One timer, decremented by 1 and floored at 0. -/
def decTimer (t : Byte) : Byte := if t.toNat > 0 then t - 1 else t

/-- `tick_timers()`: nothing in `Halted` (R182), else both timers. -/
def State.tickTimers (s : State) : State :=
  match s.run with
  | .halted => s
  | .awaitingKey _ => { s with dt := decTimer s.dt, st := decTimer s.st }
  | .running => { s with dt := decTimer s.dt, st := decTimer s.st }

/-! ## `reset_load` (R190) -/

/-- `reset_load(rom)`: a full construction and the ROM at 0x200, or no machine at all (R166). The host's schedule and the index of the
free values are no state of the machine and go on (log 23). -/
def State.resetLoad (s : State) (rom : List Byte) : Host.Outcome State Fault Refusal :=
  if Config.progBase + rom.length > Config.memSize then .refused .romTooLarge
  else
    match memWriteBytes State.reset.mem Config.progBase rom with
    | .ok m => .next { State.reset with mem := m, calls := s.calls, again := s.again, draws := s.draws }
    | .error _ => .refused .romTooLarge

/-- One call of the host (R25). -/
def State.hostCall (s : State) (c : HostCall) : Host.Outcome State Fault Refusal :=
  match c with
  | .cycle input => s.cycle input
  | .tick => .next s.tickTimers
  | .resetLoad rom => s.resetLoad rom

/-- The host's next call and what is then left of the list: the first of `calls`; after them `again` from its start; a free call where
both are empty (R25, R184; log 1). -/
def State.nextCall (s : State) : HostCall × List HostCall :=
  match s.calls with
  | c :: rest => (c, rest)
  | [] =>
    match s.again with
    | c :: rest => (c, rest)
    | [] => (Config.freeCall s.draws, [])

/-- The call taken off the host's schedule: `rest` is left of the list (log 1). -/
def State.take (s : State) (rest : List HostCall) : State := { s with calls := rest, draws := s.draws + 1 }

/-! ## Outputs (R22 to R24) -/

/-- `fb_out` (R22). -/
def State.fbOut (s : State) : Framebuffer := s.fb

/-- `sound_active`: at every moment `ST > 0` (R23, R175). -/
def State.soundActive (s : State) : Bool := decide (s.st.toNat > 0)

/-- `halted` (R24). -/
def State.haltedOut (s : State) : Bool := s.run == .halted

/-! ## Placing an instruction -/

/-- The highest address an instruction is executed from (R46). -/
abbrev lastFetchAddr : Nat := 4093

/-- The address the next cycle fetches from: `PC`, or the program base where no instruction can be fetched at `PC` (log 29). -/
def State.placeAddr (s : State) : Word :=
  if s.pc.toNat ≤ lastFetchAddr then s.pc else BitVec.ofNat 16 Config.progBase

/-- The calls with a `cycle` in front: the one the list begins with already, or one with free arguments put before the rest (log 29). -/
def State.placeCalls (s : State) : List HostCall :=
  match s.calls with
  | [] => [.cycle (Config.freeInput s.draws)]
  | .cycle input :: rest => .cycle input :: rest
  | .tick :: rest => .cycle (Config.freeInput s.draws) :: .tick :: rest
  | .resetLoad rom :: rest => .cycle (Config.freeInput s.draws) :: .resetLoad rom :: rest

/-- The state with the word `op` where the very next step fetches and runs it, high byte first (R47). -/
def State.placeWord (s : State) (op : Word) : State :=
  { s with
    pc := s.placeAddr
    mem := (s.mem.write s.placeAddr.toNat (hiByte op)).write (s.placeAddr.toNat + 1) (loByte op)
    run := .running
    fault := none
    calls := s.placeCalls }

end Sys2Proof.Machine
end

