-- ==== Sys2Proof/Machine/Step.lean ====
section
/-! DEFINITION. One step of the machine: one call of the host (10_state.md R25). -/

namespace Sys2Proof.Machine

/-- One step: the host's next call, taken off its schedule and performed whole (R25). -/
def step (s : State) : Host.Outcome State Fault Refusal := (s.take s.nextCall.2).hostCall s.nextCall.1

/-- The state with an instruction of the opcode table stored where the next step fetches it, and that step a `cycle`. -/
def State.withFetchWord (s : State) (nbits w : Nat) : State := s.placeWord (tableWord nbits w)

end Sys2Proof.Machine
end

