-- ==== Sys2Proof/Safety.lean ====
section
/-! DEFINITION. What claims are stated in: the invariant of the machine, what a failed, an idle and a waiting machine are, what the
next step will run, runs of the machine and the fairness of their host. -/

namespace Sys2Proof.Machine

/-- The invariant of the machine: what the spec says holds between operations. -/
structure State.Inv (s : State) : Prop where
  /-- Memory keeps its canonical form (R40). -/
  mem : s.mem.wf
  /-- Outside `Halted`, at most 16 return addresses (R14). -/
  depth : s.run ≠ .halted → s.stack.length ≤ 16
  /-- `FAULT` holds a record exactly while `RUN = Halted` (R19). -/
  fault : s.fault.isSome = true ↔ s.run = .halted
  /-- `display_updated` is 0 after a fatal error (R22, R167). -/
  display : s.run = .halted → s.displayUpdated = false
  /-- Outside `Halted`, `PC` is at most 0x10FE (R13). -/
  pc : s.run ≠ .halted → s.pc.toNat ≤ 0x10FE
  /-- Outside `Halted`, every return address is below 4096 (R81). -/
  ret : s.run ≠ .halted → ∀ a ∈ s.stack, a.toNat < 4096

/-- A fatal error has ended the run; never a successful end (R29, R201). -/
def State.failed (s : State) : Prop := s.run = .halted

/-- The opcode at `PC`, high byte first (R46). -/
def State.opcodeAtPC (s : State) : Word :=
  wordOfBytes (s.mem.read s.pc.toNat) (s.mem.read (s.pc.toNat + 1))

/-- The instruction at `PC` (R28). -/
def State.instrAtPC (s : State) : Instr := decodeWord s.opcodeAtPC

/-- An instruction can be fetched at `PC` and executed: both checks of R46 pass. -/
def State.fetchable (s : State) : Prop := s.run = .running ∧ s.pc.toNat ≤ 4093

/-- A finished program, by this model's end-of-run predicate (R201): running a jump to its own address. It says nothing of what the
host does afterwards. -/
def State.idle (s : State) : Prop :=
  s.fetchable ∧ ∃ nnn : BitVec 12, s.instrAtPC = .jp nnn ∧ nnn.toNat = s.pc.toNat

/-- The host's next call is a `cycle`. -/
def State.nextIsCycle (s : State) : Prop := ∃ input rest, s.nextCall = (.cycle input, rest)

/-- The host's next call is a `tick_timers`. -/
def State.nextIsTick (s : State) : Prop := ∃ rest, s.nextCall = (.tick, rest)

/-- The host's next call is a `reset_load`. -/
def State.nextIsReset (s : State) : Prop := ∃ rom rest, s.nextCall = (.resetLoad rom, rest)

/-- The state in which the instruction at `PC` executes: the call taken, `display_updated` cleared, `PC` advanced (R26, R28). -/
def State.executing (s : State) (input : CycleInput) (rest : List HostCall) : State :=
  { s with calls := rest, displayUpdated := false, now := input, draws := s.draws + 1, pc := s.pc + 2 }

/-- The fatal error the instruction `i` raises when it executes in `s`, as R161 to R163 give its one condition (R172). -/
def fatalKind (i : Instr) (s : State) : Option Fault :=
  match i with
  | .call _ => if 16 ≤ s.stack.length then some .stackOverflow else none
  | .ret => if s.stack.length = 0 then some .stackUnderflow else none
  | .drw _ _ n => if 0 < n.toNat ∧ 4096 ≤ s.i.toNat + n.toNat - 1 then some .addressOutOfRange else none
  | .ldBVx _ => if 4096 ≤ s.i.toNat + 2 then some .addressOutOfRange else none
  | .ldMemVx x => if 4096 ≤ s.i.toNat + x.val then some .addressOutOfRange else none
  | .ldVxMem x => if 4096 ≤ s.i.toNat + x.val then some .addressOutOfRange else none
  | _ => none

/-! ## Runs and the fairness of the host (70_reset_and_hazards.md R198) -/

/-- The state after `n` calls of the host, none where one of them was refused. -/
def State.after (s : State) : Nat → Option State
  | 0 => some s
  | n + 1 =>
    match s.after n with
    | none => none
    | some t =>
      match step t with
      | .next u => some u
      | .fault _ => none
      | .refused _ => none

/-- The host keeps calling `tick_timers`: after any number of calls a tick is still to come (R198, R184). -/
def State.fairTicks (s : State) : Prop := ∀ n, ∃ m, n ≤ m ∧ ∃ t, s.after m = some t ∧ t.nextIsTick

/-- The host keeps calling `cycle` (R198, R184). -/
def State.fairCycles (s : State) : Prop := ∀ n, ∃ m, n ≤ m ∧ ∃ t, s.after m = some t ∧ t.nextIsCycle

/-- Fairness of the two step agents: the host keeps calling both operations (R198). -/
def State.fairHost (s : State) : Prop := s.fairTicks ∧ s.fairCycles

/-- The host calls `reset_load` nowhere in the run. -/
def State.neverReset (s : State) : Prop := ∀ n t, s.after n = some t → ¬ t.nextIsReset

/-! ## The two waits (70_reset_and_hazards.md R202): neither an end of a run nor a fault -/

/-- The portable timing idiom (R198) at address `a`: `LD Vx, DT`, `SE Vx, 0`, `JP a`; it ends at `a + 6`. -/
def State.delayLoopAt (s : State) (a : Nat) (x : Reg) : Prop :=
  a + 6 ≤ 4093 ∧
  decodeWord (wordOfBytes (s.mem.read a) (s.mem.read (a + 1))) = .ldVxDT x ∧
  decodeWord (wordOfBytes (s.mem.read (a + 2)) (s.mem.read (a + 3))) = .seImm x 0 ∧
  ∃ nnn : BitVec 12, decodeWord (wordOfBytes (s.mem.read (a + 4)) (s.mem.read (a + 5))) = .jp nnn ∧ nnn.toNat = a

/-- The waits of the machine, as R202 lists them. -/
inductive Wait where
  /-- In `AwaitingKey(r)` (R181). -/
  | key (r : Reg)
  /-- Polling `DT` through `V[x]` in the loop at `a` (R198). -/
  | delay (a : Nat) (x : Reg)
  deriving DecidableEq, Repr

/-- The machine is in the wait. In the delay loop `DT` is not 0, and no 0 has been read that is still to be tested. -/
def State.waits (s : State) (w : Wait) : Prop :=
  match w with
  | .key r => s.run = .awaitingKey r
  | .delay a x => s.run = .running ∧ s.delayLoopAt a x ∧ s.dt ≠ 0 ∧
      (s.pc.toNat = a ∨ (s.pc.toNat = a + 2 ∧ s.reg x ≠ 0) ∨ s.pc.toNat = a + 4)

/-- Waiting for a key, which a `cycle` with a key pressed lifts (R181, R202). -/
def State.waitsForKey (s : State) : Prop := ∃ r, s.waits (.key r)

/-- Waiting for the delay timer, which a tick lifts (R198, R202). -/
def State.waitsForTick (s : State) : Prop := ∃ a x, s.waits (.delay a x)

/-- The host's move that lifts the wait: a `cycle` whose snapshot has a key pressed; a tick (R202). -/
def Wait.liftedBy (w : Wait) (c : HostCall) : Prop :=
  match w with
  | .key _ => ∃ input, c = .cycle input ∧ input.keys ≠ 0
  | .delay _ _ => c = .tick

/-- `t` is `s` with `V[x] = b` and nothing else changed. -/
def State.onlyReg (s t : State) (x : Reg) (b : Byte) : Prop :=
  t.reg x = b ∧ (∀ y, y ≠ x → t.reg y = s.reg y) ∧ { t with v := s.v } = s

/-- `t` is `s` with `V[x] = b`, with `VF = f` unless `x` is `VF`, and nothing else changed (R114). -/
def State.flagAndReg (s t : State) (x : Reg) (f b : Byte) : Prop :=
  t.reg x = b ∧ (x ≠ VF → t.reg VF = f) ∧ (∀ y, y ≠ x → y ≠ VF → t.reg y = s.reg y) ∧ { t with v := s.v } = s

end Sys2Proof.Machine

namespace Sys2Proof

/-- The destination register of the instructions whose whole effect is on registers (files 42, 43, R140, R145). -/
def Instr.regDest (i : Instr) : Option Reg :=
  match i with
  | .ldImm x _ => some x
  | .addImm x _ => some x
  | .ldReg x _ => some x
  | .orReg x _ => some x
  | .andReg x _ => some x
  | .xorReg x _ => some x
  | .addReg x _ => some x
  | .subReg x _ => some x
  | .shr x _ => some x
  | .subnReg x _ => some x
  | .shl x _ => some x
  | .rnd x _ => some x
  | .ldVxDT x => some x
  | _ => none

/-- The register-register instructions that write `VF` as a flag (R114). -/
def Instr.setsFlag (i : Instr) : Bool :=
  match i with
  | .addReg _ _ => true
  | .subReg _ _ => true
  | .shr _ _ => true
  | .subnReg _ _ => true
  | .shl _ _ => true
  | _ => false

/-- The instructions that can write `VF`, as R11 lists them: the six flag-setting ones, and those whose destination is `VF`. -/
def Instr.mayWriteVF (i : Instr) : Bool :=
  match i with
  | .drw _ _ _ => true
  | .ldVxMem x => x == VF
  | j => j.setsFlag || j.regDest == some VF

/-- The instructions that write `PC` beyond the fetch advance (R13, R85, R96). -/
def Instr.writesPC (i : Instr) : Bool :=
  match i with
  | .ret => true
  | .jp _ => true
  | .call _ => true
  | .jpV0 _ => true
  | .seImm _ _ => true
  | .sneImm _ _ => true
  | .seReg _ _ => true
  | .sneReg _ _ => true
  | .skp _ => true
  | .sknp _ => true
  | _ => false

/-- `CLS` and `DRW`, the display instructions (R133). -/
def Instr.isDisplay (i : Instr) : Bool :=
  match i with
  | .cls => true
  | .drw _ _ _ => true
  | _ => false

end Sys2Proof
end

