-- ==== Sys2Proof/Certificates/Slice0/Obligations.lean ====
section
/-! DEFINITION. The statements for the provers, from the numbered rules of spec/. Where a statement rests on a decision the spec marks as
its own (D<n>) or on a choice of the model, its docstring names the log entry. -/

open Sys2Proof Sys2Proof.Machine

/-! ## Encoding -/

/-- Sample words of every family, written out from R65 and from the decode table of 95_test_vectors.md (encodings: log 7). -/
def Obligations.SampleWordsDecode : Prop :=
  decodeWord 0x00E0#16 = .cls ∧ decodeWord 0x00EE#16 = .ret ∧ decodeWord 0x0123#16 = .sys 0x123#12 ∧
  decodeWord 0x1ABC#16 = .jp 0xABC#12 ∧ decodeWord 0x3A42#16 = .seImm 10 0x42#8 ∧
  decodeWord 0x6CAB#16 = .ldImm 12 0xAB#8 ∧ decodeWord 0x8AB4#16 = .addReg 10 11 ∧
  decodeWord 0xD12A#16 = .drw 1 2 10#4 ∧ decodeWord 0xE19E#16 = .skp 1 ∧ decodeWord 0xF01E#16 = .addIVx 0 ∧
  decodeWord 0xF333#16 = .ldBVx 3 ∧ decodeWord 0xF307#16 = .ldVxDT 3 ∧ decodeWord 0xC10F#16 = .rnd 1 0x0F#8 ∧
  decodeWord 0xF30A#16 = .ldVxK 3 ∧ decodeWord 0xF01F#16 = .unknown 0xF01F#16

/-- R60, R64, R65: decoding an encoded instruction gives it back, every operand at every value (encodings: log 7). -/
def Obligations.DecodeOfEncode : Prop :=
  ∀ (i : Instr) (rest : List Byte), i.WellFormed →
    decodeWord (encode i) = i ∧ decode (instrBytes i ++ rest) = .ok (i, rest)

/-- R64: every one of the 65536 words decodes to a well-formed instruction whose word it is (encodings: log 7). -/
def Obligations.EncodeOfDecode : Prop :=
  ∀ op : Word, (decodeWord op).WellFormed ∧ encode (decodeWord op) = op

/-- R64: the decoder's result is the first row of the opcode map whose bits under the mask match, and the last row matches every word
(the map's patterns: log 7). -/
def Obligations.DecoderFollowsOpcodeMap : Prop :=
  ∀ op : Word, tableMnemonic op = some (decodeWord op).mnemonic ∧
    ∃ r, opcodeRows.getLast? = some r ∧ r.accepts op = true

/-- R71: the words that decode to `UNKNOWN` are those of the list in R71 (strictness of the decoder: D4, log 7). -/
def Obligations.UnknownSpaceIsAsListed : Prop :=
  ∀ op : Word, (decodeWord op).mnemonic = "UNKNOWN" ↔ isUnknownWord op = true

/-! ## Memory and the register file -/

/-- R43, R44: an access at 4096 or more raises `AddressOutOfRange`; a write below changes that byte and no other. The premise is the form
in which the model holds a memory (log 25). -/
def Obligations.MemWriteChangesOneByte : Prop :=
  ∀ (m : Memory) (a : Nat) (b : Byte), m.wf →
    (4096 ≤ a → memRead m a = .error .addressOutOfRange ∧ memWrite m a b = .error .addressOutOfRange) ∧
    (a < 4096 → memRead m a = .ok (m.read a) ∧ ∃ m', memWrite m a b = .ok m' ∧ memRead m' a = .ok b ∧
      ∀ c, c ≠ a → memRead m' c = memRead m c)

/-- The model's canonical form (log 25): two canonical memories that read the same everywhere are the same data. -/
def Obligations.EqualReadsEqualMemories : Prop :=
  ∀ m m' : Memory, m.wf → m'.wf → (∀ a, a < 4096 → m.read a = m'.read a) → m = m'

/-- R6, R10: a register write changes that register and nothing else. -/
def Obligations.RegisterWriteChangesOneRegister : Prop :=
  ∀ (s : State) (x : Reg) (b : Byte), s.onlyReg (s.setReg x b) x b

/-! ## Reset -/

/-- R31: after `reset_load(rom)` every piece of state has the value of R31's table. -/
def Obligations.ResetLoadGivesTable : Prop :=
  ∀ (s : State) (rom : List Byte) (rest : List HostCall), s.nextCall = (.resetLoad rom, rest) → rom.length ≤ 3584 →
    ∃ t, step s = .next t ∧ (∀ x, t.reg x = 0) ∧ t.i = 0 ∧ t.pc = 0x200 ∧ t.stack = [] ∧
      (∀ a, a < 80 → Config.font[a]? = some (t.mem.read a)) ∧
      (∀ a, 80 ≤ a → a < 0x200 → t.mem.read a = 0) ∧
      (∀ k (h : k < rom.length), t.mem.read (0x200 + k) = rom[k]) ∧
      (∀ a, 0x200 + rom.length ≤ a → a < 4096 → t.mem.read a = 0) ∧
      (∀ k, k < 2048 → fbGet t.fb k = false) ∧ t.dt = 0 ∧ t.st = 0 ∧ t.run = .running ∧ t.fault = none ∧
      t.displayUpdated = false ∧ t.soundActive = false

/-- R166, R51: a ROM of more than 3584 bytes is refused, no machine coming into being (the refusal of the call: log 22); any other, the
empty ROM included, is accepted (R190, R192). -/
def Obligations.OversizedRomRefused : Prop :=
  ∀ (s : State) (rom : List Byte) (rest : List HostCall), s.nextCall = (.resetLoad rom, rest) →
    (4096 < 0x200 + rom.length → step s = .refused .romTooLarge) ∧
    (0x200 + rom.length ≤ 4096 → ∃ t, step s = .next t)

/-- The invariant holds after reset (R31, R193; the form of memory: log 25). -/
def Obligations.ResetStateMeetsInvariant : Prop := State.reset.Inv

/-! ## Steps -/

/-- Every step keeps the invariant: canonical memory; `FAULT` exactly in `Halted`; outside `Halted` at most 16 return addresses, each below
4096, and `PC` at most 0x10FE (R13, R14, R19, R81; `Halted` and `FAULT`: D14, log 4; the bound of a return address: D16, log 19; `JP V0`: D3,
log 8; the form of memory: log 25). Of the state R168 leaves open in `Halted` it says nothing but the form of memory, which is the model's own. -/
def Obligations.EveryStepKeepsInvariant : Prop :=
  ∀ s t : State, s.Inv → step s = .next t → t.Inv

/-- R26, R28, R46: when the bytes at `PC` decode to `i`, a `cycle` in `Running` is `i`'s meaning in the state with `PC` advanced by 2,
`display_updated` cleared and the call's arguments at hand. -/
def Obligations.StepRunsDecodedInstruction : Prop :=
  ∀ (s : State) (i : Instr) (a : CycleInput) (rest : List HostCall), s.fetchable → s.nextCall = (.cycle a, rest) →
    decode [s.mem.read s.pc.toNat, s.mem.read (s.pc.toNat + 1)] = .ok (i, []) →
    step s = exec i { s with calls := rest, displayUpdated := false, now := a, draws := s.draws + 1, pc := s.pc + 2 }

/-- R46, R163 (a), R167: a `cycle` with `PC` at 4094 or more halts with `AddressOutOfRange`, the `PC` before the fetch, and no opcode (D14,
D16; logs 4, 17, 18, 19). -/
def Obligations.FetchFaultHalts : Prop :=
  ∀ s : State, s.nextIsCycle → s.run = .running → 4094 ≤ s.pc.toNat →
    ∃ t, step s = .next t ∧ t.run = .halted ∧
      t.fault = some { kind := .addressOutOfRange, pc := s.pc, opcode := none } ∧ t.displayUpdated = false

/-- R160 to R163, R167, R172: an instruction raises exactly the fatal error R161 to R163 give it, recorded with its address and opcode;
otherwise the machine does not halt and `FAULT` is as before (D14, D32; logs 4, 17). A `CALL` in a state with more than 16 entries, which
no run reaches, overflows too: the model's choice, log 26. -/
def Obligations.FatalErrorsExactly : Prop :=
  ∀ s : State, s.nextIsCycle → s.fetchable →
    (∀ k, fatalKind s.instrAtPC s = some k → ∃ t, step s = .next t ∧ t.run = .halted ∧
      t.fault = some { kind := k, pc := s.pc, opcode := some s.opcodeAtPC } ∧ t.displayUpdated = false) ∧
    (fatalKind s.instrAtPC s = none → ∃ t, step s = .next t ∧ t.run ≠ .halted ∧ t.fault = s.fault)

/-- R161: from a state of the invariant, `StackOverflow` is recorded exactly by a `CALL` at depth 16, with opcode 0x2nnn and the address
of the `CALL` (D14, logs 4, 17). -/
def Obligations.StackOverflowOnlyByCall : Prop :=
  ∀ s t : State, s.Inv → s.run = .running → s.nextIsCycle → step s = .next t →
    ((∃ f, t.fault = some f ∧ f.kind = .stackOverflow) ↔
      s.fetchable ∧ s.stack.length = 16 ∧ ∃ nnn, s.instrAtPC = .call nnn) ∧
    (∀ nnn, s.fetchable → s.stack.length = 16 → s.instrAtPC = .call nnn →
      t.fault = some { kind := .stackOverflow, pc := s.pc, opcode := some (0x2000#16 ||| nnn.setWidth 16) })

/-- R162: from a state of the invariant, `StackUnderflow` is recorded exactly by a `RET` with an empty stack, with opcode 0x00EE and the
address of the `RET` (D14, logs 4, 17). -/
def Obligations.StackUnderflowOnlyByRet : Prop :=
  ∀ s t : State, s.Inv → s.run = .running → s.nextIsCycle → step s = .next t →
    ((∃ f, t.fault = some f ∧ f.kind = .stackUnderflow) ↔ s.fetchable ∧ s.stack = [] ∧ s.instrAtPC = .ret) ∧
    (s.fetchable → s.stack = [] → s.instrAtPC = .ret →
      t.fault = some { kind := .stackUnderflow, pc := s.pc, opcode := some 0x00EE#16 })

/-- R29, R182: in `Halted` a `cycle` and a tick change nothing of the machine; the model's own schedule moves on (D26, log 4; log 1). -/
def Obligations.HaltedIsInert : Prop :=
  ∀ s : State, s.run = .halted →
    (∀ a rest, s.nextCall = (.cycle a, rest) → step s = .next { s with calls := rest, draws := s.draws + 1 }) ∧
    (∀ rest, s.nextCall = (.tick, rest) → step s = .next { s with calls := rest, draws := s.draws + 1 })

/-- R27: in `AwaitingKey(r)` a `cycle` with no key pressed in its snapshot changes neither `V` nor `RUN`; with keys pressed it writes the lowest
index to `V[r]` and resumes; `PC`, `I`, memory, framebuffer, stack, timers and `FAULT` stay as they were: that the capturing `cycle` fetches
nothing is D12, log 15. -/
def Obligations.KeyCaptureTakesLowestKey : Prop :=
  ∀ (s : State) (r : Reg) (keys : Keys) (rnd : Byte) (rest : List HostCall), s.run = .awaitingKey r →
    s.nextCall = (.cycle { keys := keys, rnd := rnd }, rest) →
    ∃ t, step s = .next t ∧
      ((∀ k, k < 16 → keys.getLsbD k = false) → t.run = .awaitingKey r ∧ t.v = s.v) ∧
      (∀ k, k < 16 → keys.getLsbD k = true → (∀ j, j < k → keys.getLsbD j = false) →
        t.run = .running ∧ (t.reg r).toNat = k ∧ ∀ y, y ≠ r → t.reg y = s.reg y) ∧
      t.pc = s.pc ∧ t.i = s.i ∧ t.mem = s.mem ∧ t.fb = s.fb ∧ t.stack = s.stack ∧ t.dt = s.dt ∧ t.st = s.st ∧
      t.fault = s.fault

/-- R18, R146: `AwaitingKey` is entered only by `LD Vx, K`. -/
def Obligations.AwaitingOnlyByKeyWait : Prop :=
  ∀ (s t : State) (r : Reg), step s = .next t → t.run = .awaitingKey r →
    s.run = .awaitingKey r ∨ (s.nextIsCycle ∧ s.fetchable ∧ s.instrAtPC = .ldVxK r)

/-- R174, R182: a tick decrements both timers, floored at 0, and touches nothing else; in `Halted` it changes nothing (D26, log 4; the model's own
schedule moves on: log 1). -/
def Obligations.TickDecrementsTimers : Prop :=
  ∀ (s : State) (rest : List HostCall), s.nextCall = (.tick, rest) →
    ∃ t, step s = .next t ∧ { t with dt := s.dt, st := s.st } = { s with calls := rest, draws := s.draws + 1 } ∧
      (s.run ≠ .halted → t.dt.toNat = s.dt.toNat - 1 ∧ t.st.toNat = s.st.toNat - 1) ∧
      (s.run = .halted → t.dt = s.dt ∧ t.st = s.st)

/-- R176, R17: no `cycle` that ends without a fatal error changes a timer, but for `LD DT, Vx` and `LD ST, Vx`. -/
def Obligations.CyclesKeepTimers : Prop :=
  ∀ s t : State, s.nextIsCycle → step s = .next t → t.run ≠ .halted →
    (t.dt = s.dt ∨ ∃ x, s.fetchable ∧ s.instrAtPC = .ldDTVx x ∧ t.dt = s.reg x) ∧
    (t.st = s.st ∨ ∃ x, s.fetchable ∧ s.instrAtPC = .ldSTVx x ∧ t.st = s.reg x)

/-- R133: short of a reset and of a fatal error, only `CLS` and `DRW` change the framebuffer. -/
def Obligations.FramebufferOnlyByDisplay : Prop :=
  ∀ s t : State, ¬ s.nextIsReset → step s = .next t → t.run ≠ .halted → t.fb ≠ s.fb →
    s.nextIsCycle ∧ s.fetchable ∧ s.instrAtPC.isDisplay = true

/-- R58: short of a reset and of a fatal error, only `LD B` and `LD [I]` change memory. -/
def Obligations.MemoryOnlyByStores : Prop :=
  ∀ s t : State, ¬ s.nextIsReset → step s = .next t → t.run ≠ .halted → t.mem ≠ s.mem →
    s.nextIsCycle ∧ s.fetchable ∧ ∃ x, s.instrAtPC = .ldBVx x ∨ s.instrAtPC = .ldMemVx x

/-- R14, R50: short of a reset and of a fatal error, only `CALL` and `RET` change the stack. -/
def Obligations.StackOnlyByCallRet : Prop :=
  ∀ s t : State, ¬ s.nextIsReset → step s = .next t → t.run ≠ .halted → t.stack ≠ s.stack →
    s.nextIsCycle ∧ s.fetchable ∧ (s.instrAtPC = .ret ∨ ∃ nnn, s.instrAtPC = .call nnn)

/-- R12: short of a reset and of a fatal error, only `LD I`, `ADD I` and `LD F` change `I`. -/
def Obligations.IndexOnlyByItsWriters : Prop :=
  ∀ s t : State, ¬ s.nextIsReset → step s = .next t → t.run ≠ .halted → t.i ≠ s.i →
    s.nextIsCycle ∧ s.fetchable ∧
      ((∃ nnn, s.instrAtPC = .ldI nnn) ∨ ∃ x, s.instrAtPC = .addIVx x ∨ s.instrAtPC = .ldFVx x)

/-- R11: short of a reset and of a fatal error, `VF` changes only by the writers R11 lists: a capture into `VF`, or an instruction of its
list. -/
def Obligations.FlagRegisterWriters : Prop :=
  ∀ s t : State, ¬ s.nextIsReset → step s = .next t → t.run ≠ .halted → t.reg VF ≠ s.reg VF →
    s.nextIsCycle ∧ (s.run = .awaitingKey VF ∨ (s.fetchable ∧ s.instrAtPC.mayWriteVF = true))

/-- R13: an instruction that writes no `PC` leaves it advanced by exactly 2; a wait and a capture leave it as it was (that a capture fetches
nothing: D12, log 15). -/
def Obligations.ProgramCounterAdvance : Prop :=
  ∀ s t : State, s.nextIsCycle → step s = .next t → t.run ≠ .halted →
    (s.run = .running → s.instrAtPC.writesPC = false → t.pc = s.pc + 2) ∧ (s.run ≠ .running → t.pc = s.pc)

/-- R22: after a `cycle` not refused by `Halted`, `display_updated` is 1 exactly when a `CLS` or a `DRW` has executed (D13, log 16). -/
def Obligations.DisplayUpdatedExactly : Prop :=
  ∀ s t : State, s.nextIsCycle → s.run ≠ .halted → step s = .next t →
    (t.displayUpdated = true ↔ s.fetchable ∧ t.run ≠ .halted ∧ s.instrAtPC.isDisplay = true)

/-- R17, R22: the sound timer and `display_updated` influence nothing but themselves: from two states that differ in these alone, a step that
does not end in `Halted` gives states that differ in these alone; one that does gives the same `RUN` and `FAULT`, all that R168 defines. -/
def Obligations.SoundTimerUnobservable : Prop :=
  ∀ (s t : State) (v : Byte) (d : Bool), step s = .next t →
    ∃ t', step { s with st := v, displayUpdated := d } = .next t' ∧ t'.run = t.run ∧ t'.fault = t.fault ∧
      (t.run ≠ .halted → { t' with st := t.st, displayUpdated := t.displayUpdated } = t)

/-- R201, R82: a machine idling in a jump to itself stays there; a `cycle` changes nothing but `display_updated`, which it clears (the end of a
run: D30; the model's own fields move on: logs 1, 2). -/
def Obligations.IdleLoopStays : Prop :=
  ∀ (s : State) (a : CycleInput) (rest : List HostCall), s.idle → s.nextCall = (.cycle a, rest) →
    ∃ t, step s = .next t ∧ t.idle ∧ t.displayUpdated = false ∧
      { t with calls := s.calls, now := s.now, draws := s.draws, displayUpdated := s.displayUpdated } = s

/-! ## Control flow -/

/-- R80, R150: `SYS` and `UNKNOWN` execute and change nothing (D29, log 24). -/
def Obligations.NoOpsChangeNothing : Prop :=
  ∀ (s : State) (nnn : BitVec 12) (op : Word), exec (.sys nnn) s = .next s ∧ exec (.unknown op) s = .next s

/-- R81: `RET` pops the last entry into `PC`. -/
def Obligations.ReturnPopsStack : Prop :=
  ∀ (s : State) (l : List Word) (a : Word), s.stack = l ++ [a] → exec .ret s = .next { s with pc := a, stack := l }

/-- R82: `1NNN` is `JP nnn`, which sets `PC` to `nnn` exactly and changes nothing else; a target of 0xFFE or 0xFFF makes the next fetch
fault (the check after the fetch: D16, log 19). -/
def Obligations.JumpSetsPC : Prop :=
  ∀ (s : State) (nnn : BitVec 12), decodeWord (0x1000#16 ||| nnn.setWidth 16) = .jp nnn ∧
    ∃ t, exec (.jp nnn) s = .next t ∧ t.pc.toNat = nnn.toNat ∧ { t with pc := s.pc } = s ∧
      (0xFFE ≤ nnn.toNat → t.fetch = .error .addressOutOfRange)

/-- R83: `CALL nnn` below depth 16 appends the advanced `PC` and jumps. -/
def Obligations.CallPushesAndJumps : Prop :=
  ∀ (s : State) (nnn : BitVec 12), s.stack.length < 16 →
    ∃ t, exec (.call nnn) s = .next t ∧ t.stack = s.stack ++ [s.pc] ∧ t.pc.toNat = nnn.toNat ∧
      { t with pc := s.pc, stack := s.stack } = s

/-- R81, R83: a `RET` executed with the stack a `CALL` left resumes after the `CALL` and restores the stack. -/
def Obligations.CallThenReturnResumes : Prop :=
  ∀ (s t w : State) (nnn : BitVec 12), s.stack.length < 16 → exec (.call nnn) s = .next t → w.stack = t.stack →
    ∃ u, exec .ret w = .next u ∧ u.pc = s.pc ∧ u.stack = s.stack

/-- R84: `JP V0, nnn` sets `PC` to `nnn + V0`, neither wrapped nor masked (D3, log 8). -/
def Obligations.JumpV0AddsUnmasked : Prop :=
  ∀ (s : State) (nnn : BitVec 12),
    ∃ t, exec (.jpV0 nnn) s = .next t ∧ t.pc.toNat = nnn.toNat + (s.reg 0).toNat ∧ { t with pc := s.pc } = s

/-! ## Skips -/

/-- R90, R96: `3Xkk` is `SE Vx, kk`, which adds 2 to the advanced `PC` when `V[x] = kk` and changes nothing otherwise. -/
def Obligations.SkipEqualImmediate : Prop :=
  ∀ (s : State) (x : Reg) (kk : Byte), decodeWord (formatXKK 0x3#4 x kk) = .seImm x kk ∧
    (s.reg x = kk → exec (.seImm x kk) s = .next { s with pc := s.pc + 2 }) ∧
    (s.reg x ≠ kk → exec (.seImm x kk) s = .next s)

/-- R91 to R93, R96: the other register skips. -/
def Obligations.OtherRegisterSkips : Prop :=
  ∀ (s : State) (x y : Reg) (kk : Byte),
    exec (.sneImm x kk) s = .next (if s.reg x ≠ kk then { s with pc := s.pc + 2 } else s) ∧
    exec (.seReg x y) s = .next (if s.reg x = s.reg y then { s with pc := s.pc + 2 } else s) ∧
    exec (.sneReg x y) s = .next (if s.reg x ≠ s.reg y then { s with pc := s.pc + 2 } else s)

/-- R94, R95: `SKP` and `SKNP` test the key of the low four bits of `V[x]` in the snapshot of their own cycle, whatever it is (D11, log 14). -/
def Obligations.KeySkipsTestLowNibble : Prop :=
  ∀ (s : State) (x : Reg),
    exec (.skp x) s =
      .next (if s.now.keys.getLsbD ((s.reg x).toNat % 16) = true then { s with pc := s.pc + 2 } else s) ∧
    exec (.sknp x) s =
      .next (if s.now.keys.getLsbD ((s.reg x).toNat % 16) = false then { s with pc := s.pc + 2 } else s)

/-! ## Register instructions -/

/-- R100, R101: `LD Vx, kk` and `ADD Vx, kk`, modulo 256 and without a flag (D8, log 11). -/
def Obligations.RegisterImmediateResults : Prop :=
  ∀ (s : State) (x : Reg) (kk : Byte),
    (∃ t, exec (.ldImm x kk) s = .next t ∧ s.onlyReg t x kk) ∧
    (∃ t b, exec (.addImm x kk) s = .next t ∧ s.onlyReg t x b ∧ b.toNat = ((s.reg x).toNat + kk.toNat) % 256)

/-- R105 to R108, R114: `LD`, `OR`, `AND`, `XOR` write `V[x]` alone; `VF` is written only as the destination. -/
def Obligations.MoveAndLogicResults : Prop :=
  ∀ (s : State) (x y : Reg),
    (∃ t, exec (.ldReg x y) s = .next t ∧ s.onlyReg t x (s.reg y)) ∧
    (∃ t, exec (.orReg x y) s = .next t ∧ s.onlyReg t x (s.reg x ||| s.reg y)) ∧
    (∃ t, exec (.andReg x y) s = .next t ∧ s.onlyReg t x (s.reg x &&& s.reg y)) ∧
    (∃ t, exec (.xorReg x y) s = .next t ∧ s.onlyReg t x (s.reg x ^^^ s.reg y))

/-- R109, R114, R116: `ADD Vx, Vy`; with `x = 15` the sum, not the carry, remains. -/
def Obligations.AddSetsCarry : Prop :=
  ∀ (s : State) (x y : Reg), ∃ t f b, exec (.addReg x y) s = .next t ∧ s.flagAndReg t x f b ∧
    b.toNat = ((s.reg x).toNat + (s.reg y).toNat) % 256 ∧
    f.toNat = if (s.reg x).toNat + (s.reg y).toNat > 255 then 1 else 0

/-- R110, R112, R114, R116: `SUB` and `SUBN`; `VF` is 1 exactly when no borrow occurred; with `x = 15` the difference remains (D6, log 9). -/
def Obligations.SubtractSetsNoBorrow : Prop :=
  ∀ (s : State) (x y : Reg),
    (∃ t f b, exec (.subReg x y) s = .next t ∧ s.flagAndReg t x f b ∧
      b.toNat = ((s.reg x).toNat + 256 - (s.reg y).toNat) % 256 ∧
      f.toNat = if (s.reg x).toNat < (s.reg y).toNat then 0 else 1) ∧
    (∃ t f b, exec (.subnReg x y) s = .next t ∧ s.flagAndReg t x f b ∧
      b.toNat = ((s.reg y).toNat + 256 - (s.reg x).toNat) % 256 ∧
      f.toNat = if (s.reg y).toNat < (s.reg x).toNat then 0 else 1)

/-- R111, R113, R116: `SHR` and `SHL` shift `V[x]` in place, `VF` gets the bit shifted out, `y` is ignored; with `x = 15` the flag itself is
shifted (D5, D7; logs 9, 10). -/
def Obligations.ShiftsInPlace : Prop :=
  ∀ (s : State) (x y : Reg),
    (∃ t f b, exec (.shr x y) s = .next t ∧ s.flagAndReg t x f b ∧ f.toNat = (s.reg x).toNat % 2 ∧
      b.toNat = if x = VF then 0 else (s.reg x).toNat / 2) ∧
    (∃ t f b, exec (.shl x y) s = .next t ∧ s.flagAndReg t x f b ∧ f.toNat = (s.reg x).toNat / 128 ∧
      b.toNat = if x = VF then 2 * ((s.reg x).toNat / 128) else 2 * (s.reg x).toNat % 256)

/-- R140 to R142: the timer instructions. -/
def Obligations.TimerMoves : Prop :=
  ∀ (s : State) (x : Reg),
    (∃ t, exec (.ldVxDT x) s = .next t ∧ s.onlyReg t x s.dt) ∧
    (∃ t, exec (.ldDTVx x) s = .next t ∧ t.dt = s.reg x ∧ { t with dt := s.dt } = s) ∧
    (∃ t, exec (.ldSTVx x) s = .next t ∧ t.st = s.reg x ∧ { t with st := s.st } = s ∧
      (t.soundActive = true ↔ 0 < (s.reg x).toNat))

/-- R145: `RND Vx, kk` is the AND of this cycle's random byte and `kk`, for every byte (D17, log 2). -/
def Obligations.RandomIsMasked : Prop :=
  ∀ (s : State) (x : Reg) (kk : Byte), ∃ t, exec (.rnd x kk) s = .next t ∧ s.onlyReg t x (s.now.rnd &&& kk) ∧
    (t.reg x).toNat ≤ kk.toNat

/-- R146: `LD Vx, K` sets the await marker and does nothing else (D12, log 15). -/
def Obligations.KeyWaitSuspends : Prop :=
  ∀ (s : State) (x : Reg), exec (.ldVxK x) s = .next { s with run := .awaitingKey x }

/-- The frame of the register instructions (R11, R114, files 42, 43, R140, R145): every other register but a flag's `VF`, all special state
and every byte of memory are unchanged. -/
def Obligations.RegisterInstructionsFrame : Prop :=
  ∀ (i : Instr) (x : Reg) (s t : State), i.regDest = some x → exec i s = .next t →
    (∀ y, y ≠ x → (i.setsFlag = true → y ≠ VF) → t.reg y = s.reg y) ∧
    (∀ a, t.mem.read a = s.mem.read a) ∧ t.i = s.i ∧ t.pc = s.pc ∧ t.stack = s.stack ∧ t.fb = s.fb ∧ t.dt = s.dt ∧
    t.st = s.st ∧ t.run = s.run ∧ t.fault = s.fault ∧ t.displayUpdated = s.displayUpdated

/-! ## Index and memory instructions -/

/-- R120 to R122: `LD I`, `ADD I` modulo 65536, `LD F` times 5 on the whole byte; none writes `VF` (D9, D10; logs 12, 13). -/
def Obligations.IndexRegisterResults : Prop :=
  ∀ (s : State) (x : Reg) (nnn : BitVec 12),
    (∃ t, exec (.ldI nnn) s = .next t ∧ t.i.toNat = nnn.toNat ∧ { t with i := s.i } = s) ∧
    (∃ t, exec (.addIVx x) s = .next t ∧ t.i.toNat = (s.i.toNat + (s.reg x).toNat) % 65536 ∧ { t with i := s.i } = s) ∧
    (∃ t, exec (.ldFVx x) s = .next t ∧ t.i.toNat = (s.reg x).toNat * 5 ∧ { t with i := s.i } = s)

/-- R123, R126: `LD B, Vx` stores the hundreds, tens and units at `I`, `I + 1`, `I + 2` and changes no other byte (D28). -/
def Obligations.BcdStoreDigits : Prop :=
  ∀ (s : State) (x : Reg), s.mem.wf → s.i.toNat + 2 < 4096 →
    ∃ t, exec (.ldBVx x) s = .next t ∧
      (t.mem.read s.i.toNat).toNat = (s.reg x).toNat / 100 ∧
      (t.mem.read (s.i.toNat + 1)).toNat = (s.reg x).toNat / 10 % 10 ∧
      (t.mem.read (s.i.toNat + 2)).toNat = (s.reg x).toNat % 10 ∧
      (∀ a, (a < s.i.toNat ∨ s.i.toNat + 2 < a) → t.mem.read a = s.mem.read a) ∧ { t with mem := s.mem } = s

/-- R124, R126: `LD [I], Vx` stores `V[0]` to `V[x]` at `I` to `I + x`, changes no other byte, no register and not `I`. -/
def Obligations.BlockStoreWrites : Prop :=
  ∀ (s : State) (x : Reg), s.mem.wf → s.i.toNat + x.val < 4096 →
    ∃ t, exec (.ldMemVx x) s = .next t ∧
      (∀ k : Reg, k ≤ x → t.mem.read (s.i.toNat + k.val) = s.reg k) ∧
      (∀ a, (a < s.i.toNat ∨ s.i.toNat + x.val < a) → t.mem.read a = s.mem.read a) ∧ { t with mem := s.mem } = s

/-- R125, R126: `LD Vx, [I]` loads `V[0]` to `V[x]` from `I` to `I + x` and changes nothing else. -/
def Obligations.BlockLoadReads : Prop :=
  ∀ (s : State) (x : Reg), s.i.toNat + x.val < 4096 →
    ∃ t, exec (.ldVxMem x) s = .next t ∧
      (∀ k : Reg, k ≤ x → t.reg k = s.mem.read (s.i.toNat + k.val)) ∧
      (∀ k : Reg, x < k → t.reg k = s.reg k) ∧ { t with v := s.v } = s

/-- R58, R124, R125: a block stored by `LD [I], Vx` and loaded again from the same memory and `I` gives the stored registers. -/
def Obligations.BlockStoreThenLoad : Prop :=
  ∀ (s t w : State) (x : Reg), s.mem.wf → s.i.toNat + x.val < 4096 → exec (.ldMemVx x) s = .next t →
    w.mem = t.mem → w.i = s.i →
    ∃ u, exec (.ldVxMem x) w = .next u ∧ (∀ k : Reg, k ≤ x → u.reg k = s.reg k) ∧
      (∀ k : Reg, x < k → u.reg k = w.reg k)

/-- R54, R196: two bytes stored by `LD [I], Vx` are the opcode the next fetch at their address forms (D21, log 20). -/
def Obligations.StoredCodeIsFetched : Prop :=
  ∀ (s t w : State) (x k k' : Reg), s.mem.wf → s.i.toNat + x.val < 4096 → exec (.ldMemVx x) s = .next t →
    k'.val = k.val + 1 → k' ≤ x → w.mem = t.mem → w.pc.toNat = s.i.toNat + k.val → w.pc.toNat ≤ 4093 →
    w.fetch = .ok (wordOfBytes (s.reg k) (s.reg k'), { w with pc := w.pc + 2 })

/-! ## Display -/

/-- R130: `CLS` clears all 2048 cells, sets `display_updated`, and changes nothing else (D13, log 16). -/
def Obligations.ClearScreenClears : Prop :=
  ∀ s : State, ∃ t, exec .cls s = .next t ∧ (∀ k, k < 2048 → fbGet t.fb k = false) ∧ t.displayUpdated = true ∧
    { t with fb := s.fb, displayUpdated := s.displayUpdated } = s

/-- R131: `DRW` inside memory XORs each bit of the sprite onto its wrapped cell, changes no other cell, sets `VF` exactly on a collision, and
changes nothing else but `display_updated` (coordinates from the old `VF`: D22, log 21; `display_updated`: D13, log 16). -/
def Obligations.DrawSpriteXors : Prop :=
  ∀ (s : State) (x y : Reg) (n : BitVec 4), (n.toNat = 0 ∨ s.i.toNat + n.toNat - 1 < 4096) →
    ∃ t, exec (.drw x y n) s = .next t ∧
      (∀ row col, row < n.toNat → col < 8 →
        fbGet t.fb (((s.reg y).toNat % 32 + row) % 32 * 64 + ((s.reg x).toNat % 64 + col) % 64) =
          (fbGet s.fb (((s.reg y).toNat % 32 + row) % 32 * 64 + ((s.reg x).toNat % 64 + col) % 64) ^^
            (s.mem.read (s.i.toNat + row)).getLsbD (7 - col))) ∧
      (∀ k, (∀ row col, row < n.toNat → col < 8 →
          k ≠ ((s.reg y).toNat % 32 + row) % 32 * 64 + ((s.reg x).toNat % 64 + col) % 64) →
        fbGet t.fb k = fbGet s.fb k) ∧
      (t.reg VF = 0 ∨ t.reg VF = 1) ∧
      (t.reg VF = 1 ↔ ∃ row col, row < n.toNat ∧ col < 8 ∧
        fbGet s.fb (((s.reg y).toNat % 32 + row) % 32 * 64 + ((s.reg x).toNat % 64 + col) % 64) = true ∧
        (s.mem.read (s.i.toNat + row)).getLsbD (7 - col) = true) ∧
      t.displayUpdated = true ∧ (∀ r, r ≠ VF → t.reg r = s.reg r) ∧
      { t with v := s.v, fb := s.fb, displayUpdated := s.displayUpdated } = s

/-- R131, 90_conflicts.md C10: the same sprite drawn again at the same coordinates restores the framebuffer, and collides exactly when the first
drawing lit a cell of it. -/
def Obligations.DrawTwiceRestores : Prop :=
  ∀ (s t : State) (x y : Reg) (n : BitVec 4), (n.toNat = 0 ∨ s.i.toNat + n.toNat - 1 < 4096) →
    exec (.drw x y n) s = .next t → t.reg x = s.reg x → t.reg y = s.reg y →
    ∃ u, exec (.drw x y n) t = .next u ∧ u.fb = s.fb ∧
      (u.reg VF = 1 ↔ ∃ k, fbGet s.fb k = false ∧ fbGet t.fb k = true)

/-! ## The waits and the host -/

/-- R202, R181: a wait lasts until the host's own move: a `cycle` with no key pressed or a tick leaves the key wait, a `cycle` leaves the delay
loop, as it is; a pressed key lifts the key wait, and the tick that takes `DT` from 1 to 0 lifts the delay wait (the capture: D12, log 15; the
shape of the delay loop is the model's rendering of R198's idiom, log 31). -/
def Obligations.WaitsLastUntilHostMove : Prop :=
  ∀ (s t : State) (w : Wait), s.waits w → step s = .next t → ¬ s.nextIsReset →
    (¬ w.liftedBy s.nextCall.1 → t.waits w) ∧
    (w.liftedBy s.nextCall.1 → (∀ a x, w = .delay a x → s.dt = 1) → ¬ t.waits w)

/-- R198: the loop that polls `DT` until it reads 0 ends, at the address after it, when the host keeps calling both `cycle` and `tick_timers`
and does not reset (the shape of the loop: log 31). -/
def Obligations.DelayLoopEndsUnderFairHost : Prop :=
  ∀ (s : State) (a : Nat) (x : Reg), s.waits (.delay a x) → s.fairHost → s.neverReset →
    ∃ n t, s.after n = some t ∧ t.run = .running ∧ t.pc.toNat = a + 6 ∧ t.dt = 0
end

