-- ==== Sys2Proof/Laws/Decode.lean ====
section
/-! SUPPORT. The bits of each format, its fields, the formats of a word's fields, and the bytes of a word (R61, R62, R47). -/

namespace Sys2Proof

/-! ## The bits of a format -/

theorem getLsbD_formatNNN (c : BitVec 4) (nnn : BitVec 12) (i : Nat) :
    (formatNNN c nnn).getLsbD i = if i < 12 then nnn.getLsbD i else c.getLsbD (i - 12) := by
  have h : (formatNNN c nnn).getLsbD i = _ := BitVec.getLsbD_append (x := c) (y := nnn) (i := i)
  simpa using h

theorem getLsbD_nibbles (a b : BitVec 4) (i : Nat) :
    (a ++ b : BitVec 8).getLsbD i = if i < 4 then b.getLsbD i else a.getLsbD (i - 4) := by
  have h : (a ++ b : BitVec 8).getLsbD i = _ := BitVec.getLsbD_append (x := a) (y := b) (i := i)
  simpa using h

theorem getLsbD_wordOfBytes (hi lo : Byte) (i : Nat) :
    (wordOfBytes hi lo).getLsbD i = if i < 8 then lo.getLsbD i else hi.getLsbD (i - 8) := by
  have h : (wordOfBytes hi lo).getLsbD i = _ := BitVec.getLsbD_append (x := hi) (y := lo) (i := i)
  simpa using h

theorem getLsbD_formatXKK (c : BitVec 4) (x : Reg) (kk : Byte) (i : Nat) :
    (formatXKK c x kk).getLsbD i =
      if i < 8 then kk.getLsbD i else if i < 12 then (regBits x).getLsbD (i - 8) else c.getLsbD (i - 12) := by
  have h : (formatXKK c x kk).getLsbD i = _ := getLsbD_wordOfBytes (c ++ regBits x) kk i
  rw [h, getLsbD_nibbles]
  by_cases h1 : i < 8
  · simp [h1]
  · have h2 : i - 8 - 4 = i - 12 := by omega
    by_cases h3 : i < 12
    · have h4 : i - 8 < 4 := by omega
      simp [h1, h3, h4]
    · have h4 : ¬ i - 8 < 4 := by omega
      simp [h1, h3, h4, h2]

theorem getLsbD_formatXYN (c : BitVec 4) (x y : Reg) (n : BitVec 4) (i : Nat) :
    (formatXYN c x y n).getLsbD i =
      if i < 4 then n.getLsbD i else if i < 8 then (regBits y).getLsbD (i - 4)
      else if i < 12 then (regBits x).getLsbD (i - 8) else c.getLsbD (i - 12) := by
  have h : (formatXYN c x y n).getLsbD i = _ := getLsbD_formatXKK c x (regBits y ++ n) i
  rw [h, getLsbD_nibbles]
  by_cases h1 : i < 4
  · have h2 : i < 8 := by omega
    simp [h1, h2]
  · by_cases h2 : i < 8 <;> simp [h1, h2]

/-! ## The fields of a format -/

@[simp] theorem fieldC_formatNNN (c : BitVec 4) (nnn : BitVec 12) : fieldC (formatNNN c nnn) = c := by
  apply BitVec.eq_of_getLsbD_eq
  intro i hi
  simp [fieldC, getLsbD_formatNNN, hi]

@[simp] theorem fieldNNN_formatNNN (c : BitVec 4) (nnn : BitVec 12) : fieldNNN (formatNNN c nnn) = nnn := by
  apply BitVec.eq_of_getLsbD_eq
  intro i hi
  simp [fieldNNN, getLsbD_formatNNN, hi]

@[simp] theorem fieldC_formatXKK (c : BitVec 4) (x : Reg) (kk : Byte) : fieldC (formatXKK c x kk) = c := by
  apply BitVec.eq_of_getLsbD_eq
  intro i hi
  have h : ¬ 12 + i < 8 := by omega
  simp [fieldC, getLsbD_formatXKK, hi, h]

@[simp] theorem fieldKK_formatXKK (c : BitVec 4) (x : Reg) (kk : Byte) : fieldKK (formatXKK c x kk) = kk := by
  apply BitVec.eq_of_getLsbD_eq
  intro i hi
  simp [fieldKK, getLsbD_formatXKK, hi]

@[simp] theorem fieldX_formatXKK (c : BitVec 4) (x : Reg) (kk : Byte) : fieldX (formatXKK c x kk) = x := by
  have h : (formatXKK c x kk).extractLsb' 8 4 = regBits x := by
    apply BitVec.eq_of_getLsbD_eq
    intro i hi
    have h : 8 + i < 12 := by omega
    simp [getLsbD_formatXKK, hi, h]
  show ((formatXKK c x kk).extractLsb' 8 4).toFin = x
  rw [h]; rfl

@[simp] theorem fieldC_formatXYN (c : BitVec 4) (x y : Reg) (n : BitVec 4) : fieldC (formatXYN c x y n) = c := by
  apply BitVec.eq_of_getLsbD_eq
  intro i hi
  have h : ¬ 12 + i < 8 := by omega
  have h' : ¬ 12 + i < 4 := by omega
  simp [fieldC, getLsbD_formatXYN, hi, h, h']

@[simp] theorem fieldN_formatXYN (c : BitVec 4) (x y : Reg) (n : BitVec 4) : fieldN (formatXYN c x y n) = n := by
  apply BitVec.eq_of_getLsbD_eq
  intro i hi
  simp [fieldN, getLsbD_formatXYN, hi]

@[simp] theorem fieldX_formatXYN (c : BitVec 4) (x y : Reg) (n : BitVec 4) : fieldX (formatXYN c x y n) = x := by
  have h : (formatXYN c x y n).extractLsb' 8 4 = regBits x := by
    apply BitVec.eq_of_getLsbD_eq
    intro i hi
    have h1 : ¬ 8 + i < 4 := by omega
    have h2 : 8 + i < 12 := by omega
    simp [getLsbD_formatXYN, hi, h1, h2]
  show ((formatXYN c x y n).extractLsb' 8 4).toFin = x
  rw [h]; rfl

@[simp] theorem fieldY_formatXYN (c : BitVec 4) (x y : Reg) (n : BitVec 4) : fieldY (formatXYN c x y n) = y := by
  have h : (formatXYN c x y n).extractLsb' 4 4 = regBits y := by
    apply BitVec.eq_of_getLsbD_eq
    intro i hi
    have h2 : 4 + i < 8 := by omega
    simp [getLsbD_formatXYN, hi, h2]
  show ((formatXYN c x y n).extractLsb' 4 4).toFin = y
  rw [h]; rfl

/-! ## The formats of a word's fields -/

theorem regBits_fieldX (op : Word) : regBits (fieldX op) = op.extractLsb' 8 4 := rfl
theorem regBits_fieldY (op : Word) : regBits (fieldY op) = op.extractLsb' 4 4 := rfl

@[simp] theorem formatNNN_fields (op : Word) : formatNNN (fieldC op) (fieldNNN op) = op := by
  apply BitVec.eq_of_getLsbD_eq
  intro i hi
  rw [getLsbD_formatNNN]
  split
  · simp [fieldNNN, *]
  · have h1 : 12 + (i - 12) = i := by omega
    have h2 : i - 12 < 4 := by omega
    simp [fieldC, h1, h2]

@[simp] theorem formatXKK_fields (op : Word) : formatXKK (fieldC op) (fieldX op) (fieldKK op) = op := by
  apply BitVec.eq_of_getLsbD_eq
  intro i hi
  rw [getLsbD_formatXKK, regBits_fieldX]
  split
  · simp [fieldKK, *]
  · split
    · have h1 : 8 + (i - 8) = i := by omega
      have h2 : i - 8 < 4 := by omega
      simp [h1, h2]
    · have h1 : 12 + (i - 12) = i := by omega
      have h2 : i - 12 < 4 := by omega
      simp [fieldC, h1, h2]

@[simp] theorem formatXYN_fields (op : Word) :
    formatXYN (fieldC op) (fieldX op) (fieldY op) (fieldN op) = op := by
  apply BitVec.eq_of_getLsbD_eq
  intro i hi
  rw [getLsbD_formatXYN, regBits_fieldX, regBits_fieldY]
  split
  · simp [fieldN, *]
  · split
    · have h1 : 4 + (i - 4) = i := by omega
      have h2 : i - 4 < 4 := by omega
      simp [h1, h2]
    · split
      · have h1 : 8 + (i - 8) = i := by omega
        have h2 : i - 8 < 4 := by omega
        simp [h1, h2]
      · have h1 : 12 + (i - 12) = i := by omega
        have h2 : i - 12 < 4 := by omega
        simp [fieldC, h1, h2]

/-! ## The decoder, group by group (R66 to R70) -/

theorem decodeWord_group0 {op : Word} (h : fieldC op = 0x0#4) : decodeWord op = decodeGroup0 op := by
  simp [decodeWord, h]
theorem decodeWord_group5 {op : Word} (h : fieldC op = 0x5#4) : decodeWord op = decodeGroup5 op := by
  simp [decodeWord, h]
theorem decodeWord_group8 {op : Word} (h : fieldC op = 0x8#4) : decodeWord op = decodeGroup8 op := by
  simp [decodeWord, h]
theorem decodeWord_group9 {op : Word} (h : fieldC op = 0x9#4) : decodeWord op = decodeGroup9 op := by
  simp [decodeWord, h]
theorem decodeWord_groupE {op : Word} (h : fieldC op = 0xE#4) : decodeWord op = decodeGroupE op := by
  simp [decodeWord, h]
theorem decodeWord_groupF {op : Word} (h : fieldC op = 0xF#4) : decodeWord op = decodeGroupF op := by
  simp [decodeWord, h]

/-! ## The masks of the opcode map (R65) -/

/-- Under the mask of the `NNN` and `XKK` rows only `c` remains. -/
theorem and_mask_c (op : Word) (c : BitVec 4) : op &&& 0xF000#16 = formatNNN c 0#12 ↔ fieldC op = c := by
  constructor
  · intro h
    have h' := congrArg fieldC h
    rw [fieldC_formatNNN] at h'
    rw [← h']
    apply BitVec.eq_of_getLsbD_eq
    intro i hi
    interval_cases i <;> simp [fieldC]
  · rintro rfl
    apply BitVec.eq_of_getLsbD_eq
    intro i hi
    rw [getLsbD_formatNNN]
    interval_cases i <;> simp [fieldC]

/-- Under the mask of the `XYS` rows only `c` and `n` remain. -/
theorem and_mask_cn (op : Word) (c n : BitVec 4) :
    op &&& 0xF00F#16 = formatXYN c 0 0 n ↔ fieldC op = c ∧ fieldN op = n := by
  constructor
  · intro h
    have h1 := congrArg fieldC h
    have h2 := congrArg fieldN h
    rw [fieldC_formatXYN] at h1
    rw [fieldN_formatXYN] at h2
    rw [← h1, ← h2]
    constructor <;> apply BitVec.eq_of_getLsbD_eq <;> intro i hi <;> interval_cases i <;> simp [fieldC, fieldN]
  · rintro ⟨rfl, rfl⟩
    apply BitVec.eq_of_getLsbD_eq
    intro i hi
    rw [getLsbD_formatXYN]
    interval_cases i <;> simp [fieldC, fieldN, regBits]

/-- Under the mask of the `XSS` rows only `c` and `kk` remain. -/
theorem and_mask_ckk (op : Word) (c : BitVec 4) (kk : Byte) :
    op &&& 0xF0FF#16 = formatXKK c 0 kk ↔ fieldC op = c ∧ fieldKK op = kk := by
  constructor
  · intro h
    have h1 := congrArg fieldC h
    have h2 := congrArg fieldKK h
    rw [fieldC_formatXKK] at h1
    rw [fieldKK_formatXKK] at h2
    rw [← h1, ← h2]
    constructor <;> apply BitVec.eq_of_getLsbD_eq <;> intro i hi <;> interval_cases i <;> simp [fieldC, fieldKK]
  · rintro ⟨rfl, rfl⟩
    apply BitVec.eq_of_getLsbD_eq
    intro i hi
    rw [getLsbD_formatXKK]
    interval_cases i <;> simp [fieldC, fieldKK, regBits]

/-! ## The bytes of a word (R47) -/

@[simp] theorem wordOfBytes_bytes (op : Word) : wordOfBytes (hiByte op) (loByte op) = op := by
  apply BitVec.eq_of_getLsbD_eq
  intro i hi
  rw [getLsbD_wordOfBytes]
  split
  · simp [loByte, *]
  · have h1 : 8 + (i - 8) = i := by omega
    have h2 : i - 8 < 8 := by omega
    simp [hiByte, h1, h2]

@[simp] theorem hiByte_wordOfBytes (hi lo : Byte) : hiByte (wordOfBytes hi lo) = hi := by
  apply BitVec.eq_of_getLsbD_eq
  intro i h
  simp [hiByte, getLsbD_wordOfBytes, h]

@[simp] theorem loByte_wordOfBytes (hi lo : Byte) : loByte (wordOfBytes hi lo) = lo := by
  apply BitVec.eq_of_getLsbD_eq
  intro i h
  simp [loByte, getLsbD_wordOfBytes, h]

/-- Decoding the two bytes of a word is decoding the word (R60). -/
@[simp] theorem decode_bytes (op : Word) (rest : List Byte) :
    decode (hiByte op :: loByte op :: rest) = .ok (decodeWord op, rest) := by
  simp [decode]

end Sys2Proof
end

