-- ==== Sys2Proof/Laws/State.lean ====
section
/-! SUPPORT. One lemma per field per update, and the register file's laws. -/

namespace Sys2Proof.Machine

/-! ## Registers -/

@[simp] theorem State.reg_setReg_same (s : State) (x : Reg) (b : Byte) : (s.setReg x b).reg x = b := by
  simp [State.setReg, State.reg, Vector.get_eq_getElem]

theorem State.reg_setReg_ne (s : State) {x y : Reg} (b : Byte) (h : y ≠ x) : (s.setReg x b).reg y = s.reg y := by
  have h' : x.val ≠ y.val := fun e => h (Fin.ext e.symm)
  simp [State.setReg, State.reg, Vector.get_eq_getElem, h']

theorem State.reg_setReg (s : State) (x y : Reg) (b : Byte) :
    (s.setReg x b).reg y = if y = x then b else s.reg y := by
  by_cases h : y = x
  · simp [h]
  · simp [h, State.reg_setReg_ne]

/-- Two register files with the same registers are equal. -/
theorem regs_ext {v w : Vector Byte 16} (h : ∀ x : Reg, v.get x = w.get x) : v = w := by
  refine Vector.ext fun i hi => ?_
  simpa [Vector.get_eq_getElem] using h ⟨i, hi⟩

@[simp] theorem State.setReg_i (s : State) (x : Reg) (b : Byte) : (s.setReg x b).i = s.i := rfl
@[simp] theorem State.setReg_pc (s : State) (x : Reg) (b : Byte) : (s.setReg x b).pc = s.pc := rfl
@[simp] theorem State.setReg_stack (s : State) (x : Reg) (b : Byte) : (s.setReg x b).stack = s.stack := rfl
@[simp] theorem State.setReg_mem (s : State) (x : Reg) (b : Byte) : (s.setReg x b).mem = s.mem := rfl
@[simp] theorem State.setReg_fb (s : State) (x : Reg) (b : Byte) : (s.setReg x b).fb = s.fb := rfl
@[simp] theorem State.setReg_dt (s : State) (x : Reg) (b : Byte) : (s.setReg x b).dt = s.dt := rfl
@[simp] theorem State.setReg_st (s : State) (x : Reg) (b : Byte) : (s.setReg x b).st = s.st := rfl
@[simp] theorem State.setReg_run (s : State) (x : Reg) (b : Byte) : (s.setReg x b).run = s.run := rfl
@[simp] theorem State.setReg_fault (s : State) (x : Reg) (b : Byte) : (s.setReg x b).fault = s.fault := rfl
@[simp] theorem State.setReg_displayUpdated (s : State) (x : Reg) (b : Byte) :
    (s.setReg x b).displayUpdated = s.displayUpdated := rfl
@[simp] theorem State.setReg_calls (s : State) (x : Reg) (b : Byte) : (s.setReg x b).calls = s.calls := rfl
@[simp] theorem State.setReg_again (s : State) (x : Reg) (b : Byte) : (s.setReg x b).again = s.again := rfl
@[simp] theorem State.setReg_now (s : State) (x : Reg) (b : Byte) : (s.setReg x b).now = s.now := rfl
@[simp] theorem State.setReg_draws (s : State) (x : Reg) (b : Byte) : (s.setReg x b).draws = s.draws := rfl

/-- Writing a register changes the register file alone. -/
@[simp] theorem State.setReg_with_v (s : State) (x : Reg) (b : Byte) : { s.setReg x b with v := s.v } = s := rfl

/-! ## The flag before the destination (R114) -/

@[simp] theorem State.reg_setFlagThen_dest (s : State) (f : Byte) (x : Reg) (b : Byte) :
    (s.setFlagThen f x b).reg x = b := by simp [State.setFlagThen]

theorem State.reg_setFlagThen_flag (s : State) (f : Byte) {x : Reg} (b : Byte) (h : x ≠ VF) :
    (s.setFlagThen f x b).reg VF = f := by
  rw [State.setFlagThen, State.reg_setReg_ne _ _ h.symm, State.reg_setReg_same]

theorem State.reg_setFlagThen_ne (s : State) (f : Byte) {x y : Reg} (b : Byte) (hx : y ≠ x) (hf : y ≠ VF) :
    (s.setFlagThen f x b).reg y = s.reg y := by
  rw [State.setFlagThen, State.reg_setReg_ne _ _ hx, State.reg_setReg_ne _ _ hf]

@[simp] theorem State.setFlagThen_with_v (s : State) (f : Byte) (x : Reg) (b : Byte) :
    { s.setFlagThen f x b with v := s.v } = s := rfl
@[simp] theorem State.setFlagThen_i (s : State) (f : Byte) (x : Reg) (b : Byte) : (s.setFlagThen f x b).i = s.i := rfl
@[simp] theorem State.setFlagThen_pc (s : State) (f : Byte) (x : Reg) (b : Byte) : (s.setFlagThen f x b).pc = s.pc := rfl
@[simp] theorem State.setFlagThen_stack (s : State) (f : Byte) (x : Reg) (b : Byte) :
    (s.setFlagThen f x b).stack = s.stack := rfl
@[simp] theorem State.setFlagThen_mem (s : State) (f : Byte) (x : Reg) (b : Byte) : (s.setFlagThen f x b).mem = s.mem := rfl
@[simp] theorem State.setFlagThen_fb (s : State) (f : Byte) (x : Reg) (b : Byte) : (s.setFlagThen f x b).fb = s.fb := rfl
@[simp] theorem State.setFlagThen_dt (s : State) (f : Byte) (x : Reg) (b : Byte) : (s.setFlagThen f x b).dt = s.dt := rfl
@[simp] theorem State.setFlagThen_st (s : State) (f : Byte) (x : Reg) (b : Byte) : (s.setFlagThen f x b).st = s.st := rfl
@[simp] theorem State.setFlagThen_run (s : State) (f : Byte) (x : Reg) (b : Byte) : (s.setFlagThen f x b).run = s.run := rfl
@[simp] theorem State.setFlagThen_fault (s : State) (f : Byte) (x : Reg) (b : Byte) :
    (s.setFlagThen f x b).fault = s.fault := rfl
@[simp] theorem State.setFlagThen_displayUpdated (s : State) (f : Byte) (x : Reg) (b : Byte) :
    (s.setFlagThen f x b).displayUpdated = s.displayUpdated := rfl
@[simp] theorem State.setFlagThen_calls (s : State) (f : Byte) (x : Reg) (b : Byte) :
    (s.setFlagThen f x b).calls = s.calls := rfl
@[simp] theorem State.setFlagThen_again (s : State) (f : Byte) (x : Reg) (b : Byte) :
    (s.setFlagThen f x b).again = s.again := rfl
@[simp] theorem State.setFlagThen_now (s : State) (f : Byte) (x : Reg) (b : Byte) :
    (s.setFlagThen f x b).now = s.now := rfl
@[simp] theorem State.setFlagThen_draws (s : State) (f : Byte) (x : Reg) (b : Byte) :
    (s.setFlagThen f x b).draws = s.draws := rfl

/-! ## Block load (R125) -/

theorem getElem_setRegsFrom (bytes : List Byte) :
    ∀ (v : Vector Byte 16) (k r : Nat) (hr : r < 16),
      (setRegsFrom v k bytes)[r] = if k ≤ r then bytes.getD (r - k) v[r] else v[r] := by
  induction bytes with
  | nil => intro v k r hr; simp [setRegsFrom]
  | cons b bs ih =>
    intro v k r hr
    rw [setRegsFrom, ih]
    rcases Nat.lt_trichotomy r k with h | h | h
    · have h1 : ¬ k + 1 ≤ r := by omega
      have h2 : ¬ k ≤ r := by omega
      have h3 : ¬ k = r := by omega
      simp [h1, h2, h3]
    · subst h
      simp
    · have h1 : k + 1 ≤ r := by omega
      have h2 : k ≤ r := by omega
      have h3 : ¬ k = r := by omega
      obtain ⟨d, rfl⟩ : ∃ d, r = k + 1 + d := ⟨r - (k + 1), by omega⟩
      have h4 : k + 1 + d - (k + 1) = d := by omega
      have h5 : k + 1 + d - k = d + 1 := by omega
      rw [if_pos h1, if_pos h2, h4, h5]
      simp [h3]

/-- Register `r` after a block load: byte `r` where there is one, else as before (R125). -/
theorem State.reg_loadRegs (s : State) (bytes : List Byte) (r : Reg) :
    (s.loadRegs bytes).reg r = bytes.getD r.val (s.reg r) := by
  simp [State.loadRegs, State.reg, Vector.get_eq_getElem, getElem_setRegsFrom]

@[simp] theorem State.loadRegs_with_v (s : State) (bytes : List Byte) : { s.loadRegs bytes with v := s.v } = s := rfl
@[simp] theorem State.loadRegs_i (s : State) (bytes : List Byte) : (s.loadRegs bytes).i = s.i := rfl
@[simp] theorem State.loadRegs_pc (s : State) (bytes : List Byte) : (s.loadRegs bytes).pc = s.pc := rfl
@[simp] theorem State.loadRegs_stack (s : State) (bytes : List Byte) : (s.loadRegs bytes).stack = s.stack := rfl
@[simp] theorem State.loadRegs_mem (s : State) (bytes : List Byte) : (s.loadRegs bytes).mem = s.mem := rfl
@[simp] theorem State.loadRegs_fb (s : State) (bytes : List Byte) : (s.loadRegs bytes).fb = s.fb := rfl
@[simp] theorem State.loadRegs_dt (s : State) (bytes : List Byte) : (s.loadRegs bytes).dt = s.dt := rfl
@[simp] theorem State.loadRegs_st (s : State) (bytes : List Byte) : (s.loadRegs bytes).st = s.st := rfl
@[simp] theorem State.loadRegs_run (s : State) (bytes : List Byte) : (s.loadRegs bytes).run = s.run := rfl
@[simp] theorem State.loadRegs_fault (s : State) (bytes : List Byte) : (s.loadRegs bytes).fault = s.fault := rfl
@[simp] theorem State.loadRegs_displayUpdated (s : State) (bytes : List Byte) :
    (s.loadRegs bytes).displayUpdated = s.displayUpdated := rfl
@[simp] theorem State.loadRegs_calls (s : State) (bytes : List Byte) : (s.loadRegs bytes).calls = s.calls := rfl
@[simp] theorem State.loadRegs_again (s : State) (bytes : List Byte) : (s.loadRegs bytes).again = s.again := rfl
@[simp] theorem State.loadRegs_now (s : State) (bytes : List Byte) : (s.loadRegs bytes).now = s.now := rfl
@[simp] theorem State.loadRegs_draws (s : State) (bytes : List Byte) : (s.loadRegs bytes).draws = s.draws := rfl

/-- The registers `V[0]` to `V[x]` are `x + 1` bytes. -/
@[simp] theorem State.length_regsUpTo (s : State) (x : Reg) : (s.regsUpTo x).length = x.val + 1 := by
  have := x.isLt
  simp [State.regsUpTo]

theorem State.getElem_regsUpTo (s : State) (x : Reg) (k : Nat) (h : k < (s.regsUpTo x).length) :
    (s.regsUpTo x)[k] = s.reg ⟨k, by have := x.isLt; rw [State.length_regsUpTo] at h; omega⟩ := by
  simp [State.regsUpTo, State.reg, Vector.get_eq_getElem]

/-! ## The skip (R96) -/

theorem State.skipIf_pc (s : State) (c : Bool) : (s.skipIf c).pc = if c then s.pc + 2 else s.pc := by
  cases c <;> rfl

/-- A skip changes `PC` alone. -/
theorem State.skipIf_eq (s : State) (c : Bool) : s.skipIf c = { s with pc := if c then s.pc + 2 else s.pc } := by
  cases c <;> rfl

@[simp] theorem State.skipIf_v (s : State) (c : Bool) : (s.skipIf c).v = s.v := by cases c <;> rfl
@[simp] theorem State.skipIf_reg (s : State) (c : Bool) (x : Reg) : (s.skipIf c).reg x = s.reg x := by cases c <;> rfl
@[simp] theorem State.skipIf_i (s : State) (c : Bool) : (s.skipIf c).i = s.i := by cases c <;> rfl
@[simp] theorem State.skipIf_stack (s : State) (c : Bool) : (s.skipIf c).stack = s.stack := by cases c <;> rfl
@[simp] theorem State.skipIf_mem (s : State) (c : Bool) : (s.skipIf c).mem = s.mem := by cases c <;> rfl
@[simp] theorem State.skipIf_fb (s : State) (c : Bool) : (s.skipIf c).fb = s.fb := by cases c <;> rfl
@[simp] theorem State.skipIf_dt (s : State) (c : Bool) : (s.skipIf c).dt = s.dt := by cases c <;> rfl
@[simp] theorem State.skipIf_st (s : State) (c : Bool) : (s.skipIf c).st = s.st := by cases c <;> rfl
@[simp] theorem State.skipIf_run (s : State) (c : Bool) : (s.skipIf c).run = s.run := by cases c <;> rfl
@[simp] theorem State.skipIf_fault (s : State) (c : Bool) : (s.skipIf c).fault = s.fault := by cases c <;> rfl
@[simp] theorem State.skipIf_displayUpdated (s : State) (c : Bool) :
    (s.skipIf c).displayUpdated = s.displayUpdated := by cases c <;> rfl
@[simp] theorem State.skipIf_calls (s : State) (c : Bool) : (s.skipIf c).calls = s.calls := by cases c <;> rfl
@[simp] theorem State.skipIf_again (s : State) (c : Bool) : (s.skipIf c).again = s.again := by cases c <;> rfl
@[simp] theorem State.skipIf_now (s : State) (c : Bool) : (s.skipIf c).now = s.now := by cases c <;> rfl
@[simp] theorem State.skipIf_draws (s : State) (c : Bool) : (s.skipIf c).draws = s.draws := by cases c <;> rfl

/-! ## The fatal-error entry (R167) -/

@[simp] theorem State.raise_run (s : State) (k : Fault) (pc0 : Word) (op : Option Word) :
    (s.raise k pc0 op).run = .halted := rfl
@[simp] theorem State.raise_fault (s : State) (k : Fault) (pc0 : Word) (op : Option Word) :
    (s.raise k pc0 op).fault = some { kind := k, pc := pc0, opcode := op } := rfl
@[simp] theorem State.raise_displayUpdated (s : State) (k : Fault) (pc0 : Word) (op : Option Word) :
    (s.raise k pc0 op).displayUpdated = false := rfl
@[simp] theorem State.raise_calls (s : State) (k : Fault) (pc0 : Word) (op : Option Word) :
    (s.raise k pc0 op).calls = s.calls := rfl
@[simp] theorem State.raise_again (s : State) (k : Fault) (pc0 : Word) (op : Option Word) :
    (s.raise k pc0 op).again = s.again := rfl
@[simp] theorem State.raise_now (s : State) (k : Fault) (pc0 : Word) (op : Option Word) :
    (s.raise k pc0 op).now = s.now := rfl
@[simp] theorem State.raise_draws (s : State) (k : Fault) (pc0 : Word) (op : Option Word) :
    (s.raise k pc0 op).draws = s.draws := rfl

@[simp] theorem State.raiseIn_run (s : State) (i : Instr) (k : Fault) : (s.raiseIn i k).run = .halted := rfl
@[simp] theorem State.raiseIn_fault (s : State) (i : Instr) (k : Fault) :
    (s.raiseIn i k).fault = some { kind := k, pc := s.pc - 2, opcode := some (encode i) } := rfl
@[simp] theorem State.raiseIn_displayUpdated (s : State) (i : Instr) (k : Fault) :
    (s.raiseIn i k).displayUpdated = false := rfl
@[simp] theorem State.raiseIn_calls (s : State) (i : Instr) (k : Fault) : (s.raiseIn i k).calls = s.calls := rfl
@[simp] theorem State.raiseIn_again (s : State) (i : Instr) (k : Fault) : (s.raiseIn i k).again = s.again := rfl

/-! ## The call taken off the schedule (R25) -/

@[simp] theorem State.take_v (s : State) (l : List HostCall) : (s.take l).v = s.v := rfl
@[simp] theorem State.take_i (s : State) (l : List HostCall) : (s.take l).i = s.i := rfl
@[simp] theorem State.take_pc (s : State) (l : List HostCall) : (s.take l).pc = s.pc := rfl
@[simp] theorem State.take_stack (s : State) (l : List HostCall) : (s.take l).stack = s.stack := rfl
@[simp] theorem State.take_mem (s : State) (l : List HostCall) : (s.take l).mem = s.mem := rfl
@[simp] theorem State.take_fb (s : State) (l : List HostCall) : (s.take l).fb = s.fb := rfl
@[simp] theorem State.take_dt (s : State) (l : List HostCall) : (s.take l).dt = s.dt := rfl
@[simp] theorem State.take_st (s : State) (l : List HostCall) : (s.take l).st = s.st := rfl
@[simp] theorem State.take_run (s : State) (l : List HostCall) : (s.take l).run = s.run := rfl
@[simp] theorem State.take_fault (s : State) (l : List HostCall) : (s.take l).fault = s.fault := rfl
@[simp] theorem State.take_displayUpdated (s : State) (l : List HostCall) : (s.take l).displayUpdated = s.displayUpdated := rfl
@[simp] theorem State.take_again (s : State) (l : List HostCall) : (s.take l).again = s.again := rfl
@[simp] theorem State.take_now (s : State) (l : List HostCall) : (s.take l).now = s.now := rfl
@[simp] theorem State.take_reg (s : State) (l : List HostCall) (x : Reg) : (s.take l).reg x = s.reg x := rfl
@[simp] theorem State.take_calls (s : State) (l : List HostCall) : (s.take l).calls = l := rfl
@[simp] theorem State.take_draws (s : State) (l : List HostCall) : (s.take l).draws = s.draws + 1 := rfl

/-! ## The start of a cycle (R26) and the state an instruction executes in -/

@[simp] theorem State.beginCycle_reg (s : State) (a : CycleInput) (x : Reg) : (s.beginCycle a).reg x = s.reg x := rfl
@[simp] theorem State.beginCycle_i (s : State) (a : CycleInput) : (s.beginCycle a).i = s.i := rfl
@[simp] theorem State.beginCycle_pc (s : State) (a : CycleInput) : (s.beginCycle a).pc = s.pc := rfl
@[simp] theorem State.beginCycle_stack (s : State) (a : CycleInput) : (s.beginCycle a).stack = s.stack := rfl
@[simp] theorem State.beginCycle_mem (s : State) (a : CycleInput) : (s.beginCycle a).mem = s.mem := rfl
@[simp] theorem State.beginCycle_fb (s : State) (a : CycleInput) : (s.beginCycle a).fb = s.fb := rfl
@[simp] theorem State.beginCycle_dt (s : State) (a : CycleInput) : (s.beginCycle a).dt = s.dt := rfl
@[simp] theorem State.beginCycle_st (s : State) (a : CycleInput) : (s.beginCycle a).st = s.st := rfl
@[simp] theorem State.beginCycle_run (s : State) (a : CycleInput) : (s.beginCycle a).run = s.run := rfl
@[simp] theorem State.beginCycle_fault (s : State) (a : CycleInput) : (s.beginCycle a).fault = s.fault := rfl
@[simp] theorem State.beginCycle_displayUpdated (s : State) (a : CycleInput) :
    (s.beginCycle a).displayUpdated = false := rfl
@[simp] theorem State.beginCycle_now (s : State) (a : CycleInput) : (s.beginCycle a).now = a := rfl
@[simp] theorem State.beginCycle_calls (s : State) (a : CycleInput) : (s.beginCycle a).calls = s.calls := rfl
@[simp] theorem State.beginCycle_again (s : State) (a : CycleInput) : (s.beginCycle a).again = s.again := rfl
@[simp] theorem State.beginCycle_draws (s : State) (a : CycleInput) : (s.beginCycle a).draws = s.draws := rfl

@[simp] theorem State.executing_v (s : State) (a : CycleInput) (l : List HostCall) : (s.executing a l).v = s.v := rfl
@[simp] theorem State.executing_reg (s : State) (a : CycleInput) (l : List HostCall) (x : Reg) :
    (s.executing a l).reg x = s.reg x := rfl
@[simp] theorem State.executing_i (s : State) (a : CycleInput) (l : List HostCall) : (s.executing a l).i = s.i := rfl
@[simp] theorem State.executing_pc (s : State) (a : CycleInput) (l : List HostCall) :
    (s.executing a l).pc = s.pc + 2 := rfl
@[simp] theorem State.executing_stack (s : State) (a : CycleInput) (l : List HostCall) :
    (s.executing a l).stack = s.stack := rfl
@[simp] theorem State.executing_mem (s : State) (a : CycleInput) (l : List HostCall) :
    (s.executing a l).mem = s.mem := rfl
@[simp] theorem State.executing_fb (s : State) (a : CycleInput) (l : List HostCall) : (s.executing a l).fb = s.fb := rfl
@[simp] theorem State.executing_dt (s : State) (a : CycleInput) (l : List HostCall) : (s.executing a l).dt = s.dt := rfl
@[simp] theorem State.executing_st (s : State) (a : CycleInput) (l : List HostCall) : (s.executing a l).st = s.st := rfl
@[simp] theorem State.executing_run (s : State) (a : CycleInput) (l : List HostCall) :
    (s.executing a l).run = s.run := rfl
@[simp] theorem State.executing_fault (s : State) (a : CycleInput) (l : List HostCall) :
    (s.executing a l).fault = s.fault := rfl
@[simp] theorem State.executing_displayUpdated (s : State) (a : CycleInput) (l : List HostCall) :
    (s.executing a l).displayUpdated = false := rfl
@[simp] theorem State.executing_now (s : State) (a : CycleInput) (l : List HostCall) :
    (s.executing a l).now = a := rfl
@[simp] theorem State.executing_calls (s : State) (a : CycleInput) (l : List HostCall) :
    (s.executing a l).calls = l := rfl
@[simp] theorem State.executing_again (s : State) (a : CycleInput) (l : List HostCall) :
    (s.executing a l).again = s.again := rfl
@[simp] theorem State.executing_draws (s : State) (a : CycleInput) (l : List HostCall) :
    (s.executing a l).draws = s.draws + 1 := rfl

end Sys2Proof.Machine
end

