-- ==== Sys2Proof/Laws/Memory.lean ====
section
/-! SUPPORT. The laws of memory: read after write, the canonical form, checked accesses, blocks of bytes. -/

namespace Sys2Proof.Machine

/-! ## One byte -/

/-- Writing one byte leaves every other address as it was (R44). -/
theorem Memory.read_write_ne (m : Memory) {a c : Nat} (b : Byte) (h : c ≠ a) : (m.write a b).read c = m.read c := by
  induction m with
  | nil => by_cases hb : b = Memory.unlisted a <;> simp [Memory.write, Memory.read, hb, h]
  | cons p m ih =>
    obtain ⟨k, d⟩ := p
    by_cases hlt : a < k
    · by_cases hb : b = Memory.unlisted a <;> simp [Memory.write, Memory.read, hlt, hb, h]
    · by_cases hk : a = k
      · subst hk
        by_cases hb : b = Memory.unlisted a <;> simp [Memory.write, Memory.read, hb, h]
      · simp [Memory.write, Memory.read, hlt, hk, ih]

/-- An address below every listed address is not listed. -/
theorem Memory.read_of_lt (m : Memory) (a : Nat) (h : ∀ p ∈ m, a < p.1) : m.read a = Memory.unlisted a := by
  induction m with
  | nil => rfl
  | cons p m ih =>
    obtain ⟨k, d⟩ := p
    have hk : a < k := h (k, d) (by simp)
    have hne : a ≠ k := by omega
    simp [Memory.read, hne, ih fun p hp => h p (by simp [hp])]

/-- A canonical memory reads back what was written (R44, R58). -/
theorem Memory.read_write_same (m : Memory) (a : Nat) (b : Byte) (hm : m.Pairwise fun p q => p.1 < q.1) :
    (m.write a b).read a = b := by
  induction m with
  | nil => by_cases hb : b = Memory.unlisted a <;> simp [Memory.write, Memory.read, hb]
  | cons p m ih =>
    obtain ⟨k, d⟩ := p
    rw [List.pairwise_cons] at hm
    by_cases hlt : a < k
    · by_cases hb : b = Memory.unlisted a
      · have hne : a ≠ k := by omega
        have hr : Memory.read m a = Memory.unlisted a :=
          Memory.read_of_lt m a fun p hp => Nat.lt_trans hlt (hm.1 p hp)
        simp [Memory.write, Memory.read, hlt, hb, hne, hr]
      · simp [Memory.write, Memory.read, hlt, hb]
    · by_cases hk : a = k
      · subst hk
        by_cases hb : b = Memory.unlisted a
        · have hr : Memory.read m a = Memory.unlisted a := Memory.read_of_lt m a hm.1
          simp [Memory.write, hb, hr]
        · simp [Memory.write, Memory.read, hb]
      · simp [Memory.write, Memory.read, hlt, hk, ih hm.2]

/-- Every entry after a write is the written one or was there before. -/
theorem Memory.mem_write {m : Memory} {a : Nat} {b : Byte} {p : Host.Cell} (h : p ∈ m.write a b) :
    (p = (a, b) ∧ b ≠ Memory.unlisted a) ∨ p ∈ m := by
  induction m with
  | nil =>
    by_cases hb : b = Memory.unlisted a
    · simp [Memory.write, hb] at h
    · simp only [Memory.write, hb, if_false, List.mem_singleton] at h
      exact .inl ⟨h, hb⟩
  | cons q m ih =>
    obtain ⟨k, d⟩ := q
    simp only [Memory.write] at h
    split at h
    · split at h
      · exact .inr h
      · rename_i hb
        rcases List.mem_cons.1 h with rfl | h
        · exact .inl ⟨rfl, hb⟩
        · exact .inr h
    · split at h
      · split at h
        · exact .inr (List.mem_cons_of_mem _ h)
        · rename_i hb
          rcases List.mem_cons.1 h with rfl | h
          · exact .inl ⟨rfl, hb⟩
          · exact .inr (List.mem_cons_of_mem _ h)
      · rcases List.mem_cons.1 h with rfl | h
        · exact .inr (by simp)
        · exact (ih h).imp id fun h => List.mem_cons_of_mem _ h

/-- A write keeps the addresses strictly rising. -/
theorem Memory.pairwise_write (m : Memory) (a : Nat) (b : Byte) (hm : m.Pairwise fun p q => p.1 < q.1) :
    (m.write a b).Pairwise fun p q => p.1 < q.1 := by
  induction m with
  | nil => by_cases hb : b = Memory.unlisted a <;> simp [Memory.write, hb]
  | cons q m ih =>
    obtain ⟨k, d⟩ := q
    have hm' := List.pairwise_cons.1 hm
    simp only [Memory.write]
    split
    · rename_i hlt
      split
      · exact hm
      · refine List.pairwise_cons.2 ⟨fun p hp => ?_, hm⟩
        rcases List.mem_cons.1 hp with rfl | hp
        · exact hlt
        · exact Nat.lt_trans hlt (hm'.1 p hp)
    · rename_i hlt
      split
      · rename_i hk
        subst hk
        split
        · exact hm'.2
        · exact List.pairwise_cons.2 ⟨hm'.1, hm'.2⟩
      · rename_i hk
        refine List.pairwise_cons.2 ⟨fun p hp => ?_, ih hm'.2⟩
        rcases Memory.mem_write hp with ⟨rfl, -⟩ | hp
        · show k < a
          omega
        · exact hm'.1 p hp

/-- A write of an address below 4096 keeps the canonical form. -/
theorem Memory.wf_write {m : Memory} {a : Nat} (b : Byte) (ha : a < 4096) (hm : m.wf) : (m.write a b).wf := by
  refine ⟨Memory.pairwise_write m a b hm.1, fun p hp => ?_⟩
  rcases Memory.mem_write hp with ⟨rfl, hb⟩ | hp
  · exact ⟨ha, hb⟩
  · exact hm.2 p hp

/-- Memory with nothing listed is canonical. -/
theorem Memory.wf_nil : Memory.wf [] := by simp [Memory.wf]

/-- `Memory.ofFn` is canonical whatever the function. -/
theorem Memory.wf_ofFn (f : Nat → Byte) : (Memory.ofFn f).wf := by
  constructor
  · refine List.Pairwise.filterMap (R := (· < ·)) _ (fun a a' haa p hp q hq => ?_) List.pairwise_lt_range
    split at hp <;> simp at hp
    split at hq <;> simp at hq
    subst hp hq
    exact haa
  · intro p hp
    simp only [Memory.ofFn, List.mem_filterMap, List.mem_range] at hp
    obtain ⟨a, ha, h⟩ := hp
    split at h
    · simp at h
    · rename_i hne
      simp only [Option.some.injEq] at h
      subst h
      exact ⟨ha, hne⟩

/-! ## Checked accesses (R43, R44) -/

theorem memRead_ok (m : Memory) {a : Nat} (h : a < 4096) : memRead m a = .ok (m.read a) := by
  simp [memRead, Config.memSize, h]

theorem memRead_error (m : Memory) {a : Nat} (h : 4096 ≤ a) : memRead m a = .error .addressOutOfRange := by
  have h' : ¬ a < 4096 := by omega
  simp [memRead, Config.memSize, h']

theorem memWrite_ok (m : Memory) {a : Nat} (b : Byte) (h : a < 4096) : memWrite m a b = .ok (m.write a b) := by
  simp [memWrite, Config.memSize, h]

theorem memWrite_error (m : Memory) {a : Nat} (b : Byte) (h : 4096 ≤ a) :
    memWrite m a b = .error .addressOutOfRange := by
  have h' : ¬ a < 4096 := by omega
  simp [memWrite, Config.memSize, h']

/-! ## Blocks (R126) -/

/-- A block read inside memory gives the bytes in order. -/
theorem memReadBytes_ok (m : Memory) : ∀ (n a : Nat), a + n ≤ 4096 →
    memReadBytes m a n = .ok ((List.range n).map fun k => m.read (a + k)) := by
  intro n
  induction n with
  | zero => intro a _; rfl
  | succ n ih =>
    intro a h
    rw [memReadBytes, memRead_ok m (by omega), ih (a + 1) (by omega), List.range_succ_eq_map]
    simp [Nat.add_assoc, Nat.add_comm 1, Function.comp_def]

/-- A block read of at least one byte that leaves memory raises `AddressOutOfRange`. -/
theorem memReadBytes_error (m : Memory) : ∀ (n a : Nat), 0 < n → 4096 < a + n →
    memReadBytes m a n = .error .addressOutOfRange := by
  intro n
  induction n with
  | zero => intro a h; omega
  | succ n ih =>
    intro a _ h
    rw [memReadBytes]
    by_cases ha : a < 4096
    · rw [memRead_ok m ha, ih (a + 1) (by omega) (by omega)]
    · rw [memRead_error m (by omega)]

/-- The memory after a block write inside memory: written bytes read back, the others are as before, the form is kept. -/
theorem memWriteBytes_ok (bytes : List Byte) : ∀ (m : Memory) (a : Nat), m.wf → a + bytes.length ≤ 4096 →
    ∃ m', memWriteBytes m a bytes = .ok m' ∧ m'.wf ∧
      (∀ k (h : k < bytes.length), m'.read (a + k) = bytes[k]) ∧
      (∀ c, (c < a ∨ a + bytes.length ≤ c) → m'.read c = m.read c) := by
  induction bytes with
  | nil => intro m a hm _; exact ⟨m, rfl, hm, by simp, fun _ _ => rfl⟩
  | cons b bs ih =>
    intro m a hm h
    have hlen : (b :: bs).length = bs.length + 1 := rfl
    have ha : a < 4096 := by omega
    obtain ⟨m', he, hwf, hin, hout⟩ := ih (m.write a b) (a + 1) (Memory.wf_write b ha hm) (by omega)
    refine ⟨m', ?_, hwf, fun k hk => ?_, fun c hc => ?_⟩
    · rw [memWriteBytes, memWrite_ok m b ha]; exact he
    · cases k with
      | zero =>
        have := hout a (by omega)
        rw [Nat.add_zero, this, Memory.read_write_same m a b hm.1]; rfl
      | succ k =>
        have := hin k (by omega)
        rw [show a + (k + 1) = a + 1 + k by omega, this]; rfl
    · rw [hout c (by omega), Memory.read_write_ne m b (by omega)]

/-- A block write of at least one byte that leaves memory raises `AddressOutOfRange`. -/
theorem memWriteBytes_error (bytes : List Byte) : ∀ (m : Memory) (a : Nat), bytes ≠ [] → 4096 < a + bytes.length →
    memWriteBytes m a bytes = .error .addressOutOfRange := by
  induction bytes with
  | nil => intro m a h; exact absurd rfl h
  | cons b bs ih =>
    intro m a _ h
    have hlen : (b :: bs).length = bs.length + 1 := rfl
    rw [memWriteBytes]
    by_cases ha : a < 4096
    · rw [memWrite_ok m b ha]
      exact ih _ _ (fun e => by subst e; simp at h; omega) (by omega)
    · rw [memWrite_error m b (by omega)]

/-- A block write keeps the canonical form, in whatever state it ends. -/
theorem memWriteBytes_wf (bytes : List Byte) : ∀ (m m' : Memory) (a : Nat), m.wf →
    memWriteBytes m a bytes = .ok m' → m'.wf := by
  induction bytes with
  | nil => intro m m' a hm h; cases h; exact hm
  | cons b bs ih =>
    intro m m' a hm h
    rw [memWriteBytes] at h
    by_cases ha : a < 4096
    · rw [memWrite_ok m b ha] at h
      exact ih _ _ _ (Memory.wf_write b ha hm) h
    · rw [memWrite_error m b (by omega)] at h
      cases h

/-- A block of writes inside memory ends well, whatever the form of the memory. -/
theorem memWriteBytes_isOk (bytes : List Byte) : ∀ (m : Memory) (a : Nat), a + bytes.length ≤ 4096 →
    ∃ m', memWriteBytes m a bytes = .ok m' := by
  induction bytes with
  | nil => intro m a _; exact ⟨m, rfl⟩
  | cons b bs ih =>
    intro m a h
    rw [List.length_cons] at h
    rw [memWriteBytes, memWrite_ok m b (by omega)]
    exact ih _ _ (by omega)

/-- The memory after a fatal error is canonical, whatever its bytes (R168). -/
theorem State.raise_wf (s : State) (k : Fault) (pc0 : Word) (op : Option Word) : (s.raise k pc0 op).mem.wf := by
  have h : (s.raise k pc0 op).mem = Memory.ofFn (Config.unspecMem s.draws) := by
    simp only [State.raise, State.unspecified]
  rw [h]
  exact Memory.wf_ofFn _

end Sys2Proof.Machine
end

