-- ==== Sys2Proof/Laws/Framebuffer.lean ====
section
/-! SUPPORT. The laws of the framebuffer: one cell, and a whole sprite as the list of its cells. -/

namespace Sys2Proof.Machine

/-! ## One cell (R132) -/

@[simp] theorem fbGet_zero (k : Nat) : fbGet 0 k = false := by simp [fbGet]

/-- A cell reads back what was written; every other cell is as before. -/
theorem fbGet_fbSet (fb : Framebuffer) {k : Nat} (j : Nat) (b : Bool) (hk : k < 2048) :
    fbGet (fbSet fb k b) j = if j = k then b else fbGet fb j := by
  by_cases h : j = k
  · subst h
    cases b <;> simp [fbGet, fbSet, hk]
  · have h' : ¬ k = j := fun e => h e.symm
    cases b
    · by_cases hj : j < 2048
      · simp [fbGet, fbSet, h, hj]
      · simp [fbGet, fbSet, BitVec.getLsbD_of_ge _ _ (Nat.not_lt.1 hj)]
    · simp [fbGet, fbSet, h, h']

/-- Two framebuffers with the same 2048 cells are equal. -/
theorem fb_ext {p q : Framebuffer} (h : ∀ k, k < 2048 → fbGet p k = fbGet q k) : p = q :=
  BitVec.eq_of_getLsbD_eq fun k hk => h k hk

/-! ## The cells of a sprite (R131) -/

/-- Drawing a list of cells, each with its sprite bit, in order. -/
def drawCells (c : Canvas) (cells : List (Nat × Bool)) : Canvas := cells.foldl (fun c p => drawCell c p.1 p.2) c

/-- The cells of `n` sprite rows from row `row` on, with their bits. -/
def spriteCells (m : Memory) (base x0 y0 row n : Nat) : List (Nat × Bool) :=
  (List.range' row n).flatMap fun r =>
    (List.range 8).map fun col => (cellIndex x0 y0 r col, spriteBit (m.read (base + r)) col)

theorem drawCells_append (c : Canvas) (l l' : List (Nat × Bool)) :
    drawCells c (l ++ l') = drawCells (drawCells c l) l' := by simp [drawCells]

theorem drawRow_eq (x0 y0 row : Nat) (b : Byte) (c : Canvas) :
    drawRow x0 y0 row b c =
      drawCells c ((List.range 8).map fun col => (cellIndex x0 y0 row col, spriteBit b col)) := by
  rw [drawRow, drawCells, List.foldl_map]

/-- Sprite rows read inside memory draw the sprite's cells. -/
theorem drawRows_ok (m : Memory) (base x0 y0 : Nat) : ∀ (n row : Nat) (c : Canvas), n = 0 ∨ base + row + n ≤ 4096 →
    drawRows m base x0 y0 row n c = .ok (drawCells c (spriteCells m base x0 y0 row n)) := by
  intro n
  induction n with
  | zero => intro row c _; rfl
  | succ n ih =>
    intro row c h
    rw [drawRows, memRead_ok m (by omega)]
    simp only
    rw [ih (row + 1) _ (by omega), drawRow_eq, ← drawCells_append]
    rfl

/-- Sprite rows that leave memory raise `AddressOutOfRange`. -/
theorem drawRows_error (m : Memory) (base x0 y0 : Nat) : ∀ (n row : Nat) (c : Canvas), 0 < n → 4096 < base + row + n →
    drawRows m base x0 y0 row n c = .error .addressOutOfRange := by
  intro n
  induction n with
  | zero => intro row c h; omega
  | succ n ih =>
    intro row c _ h
    rw [drawRows]
    by_cases ha : base + row < 4096
    · rw [memRead_ok m ha]
      exact ih (row + 1) _ (by omega) (by omega)
    · rw [memRead_error m (by omega)]

theorem cellIndex_lt (x0 y0 row col : Nat) : cellIndex x0 y0 row col < 2048 := by
  simp only [cellIndex, Config.fbHeight, Config.fbWidth]; omega

/-- Within one sprite no cell is met twice: fewer than 32 rows, 8 columns (R131). -/
theorem cellIndex_inj {x0 y0 row col row' col' : Nat} (hr : row < 16) (hr' : row' < 16) (hc : col < 8) (hc' : col' < 8)
    (h : cellIndex x0 y0 row col = cellIndex x0 y0 row' col') : row = row' ∧ col = col' := by
  simp only [cellIndex, Config.fbHeight, Config.fbWidth] at h
  omega

theorem mem_spriteCells {m : Memory} {base x0 y0 row n : Nat} {p : Nat × Bool} :
    p ∈ spriteCells m base x0 y0 row n ↔
      ∃ r, row ≤ r ∧ r < row + n ∧ ∃ col, col < 8 ∧
        p = (cellIndex x0 y0 r col, spriteBit (m.read (base + r)) col) := by
  simp only [spriteCells, List.mem_flatMap, List.mem_range'_1, List.mem_map, List.mem_range]
  constructor
  · rintro ⟨r, ⟨h1, h2⟩, col, hc, rfl⟩; exact ⟨r, h1, h2, col, hc, rfl⟩
  · rintro ⟨r, h1, h2, col, hc, rfl⟩; exact ⟨r, ⟨h1, h2⟩, col, hc, rfl⟩

/-- No two entries of a sprite's list name one cell. -/
theorem pairwise_spriteCells (m : Memory) (base x0 y0 : Nat) : ∀ (n row : Nat), row + n ≤ 16 →
    (spriteCells m base x0 y0 row n).Pairwise fun p q => p.1 ≠ q.1 := by
  intro n
  induction n with
  | zero => intro row _; exact List.Pairwise.nil
  | succ n ih =>
    intro row h
    show (((List.range 8).map fun col => (cellIndex x0 y0 row col, spriteBit (m.read (base + row)) col)) ++
      spriteCells m base x0 y0 (row + 1) n).Pairwise _
    refine List.pairwise_append.2 ⟨?_, ih (row + 1) (by omega), fun p hp q hq => ?_⟩
    · refine List.pairwise_map.2 (List.Pairwise.imp_of_mem ?_ (List.pairwise_lt_range (n := 8)))
      intro a b ha hb hab e
      have ha := List.mem_range.1 ha
      have hb := List.mem_range.1 hb
      have := (cellIndex_inj (by omega) (by omega) ha hb e).2
      omega
    · obtain ⟨col, hc, rfl⟩ := List.mem_map.1 hp
      obtain ⟨r, h1, h2, col', hc', rfl⟩ := mem_spriteCells.1 hq
      intro e
      have := (cellIndex_inj (by omega) (by omega) (List.mem_range.1 hc) hc' e).1
      omega

/-- What drawing a list of distinct cells does: XOR on each, nothing elsewhere, a hit where a lit cell met a bit 1. -/
theorem drawCells_spec (l : List (Nat × Bool)) : ∀ (c : Canvas), (l.Pairwise fun p q => p.1 ≠ q.1) →
    (∀ p ∈ l, p.1 < 2048) →
    (∀ p ∈ l, fbGet (drawCells c l).fb p.1 = (fbGet c.fb p.1 ^^ p.2)) ∧
    (∀ k, (∀ p ∈ l, p.1 ≠ k) → fbGet (drawCells c l).fb k = fbGet c.fb k) ∧
    (drawCells c l).hit = (c.hit || l.any fun p => fbGet c.fb p.1 && p.2) := by
  induction l with
  | nil => intro c _ _; simp [drawCells]
  | cons q l ih =>
    intro c hp hlt
    have hq := hlt q (by simp)
    rw [List.pairwise_cons] at hp
    obtain ⟨h1, h2, h3⟩ := ih (drawCell c q.1 q.2) hp.2 fun p hpl => hlt p (by simp [hpl])
    have hstep : ∀ j, fbGet (drawCell c q.1 q.2).fb j = if j = q.1 then (fbGet c.fb q.1 ^^ q.2) else fbGet c.fb j :=
      fun j => fbGet_fbSet c.fb j _ hq
    have hcons : drawCells c (q :: l) = drawCells (drawCell c q.1 q.2) l := rfl
    rw [hcons]
    refine ⟨fun p hpl => ?_, fun k hk => ?_, ?_⟩
    · rcases List.mem_cons.1 hpl with rfl | hpl
      · rw [h2 p.1 fun r hr => (hp.1 r hr).symm, hstep]; simp
      · rw [h1 p hpl, hstep, if_neg (hp.1 p hpl).symm]
    · rw [h2 k fun r hr => hk r (by simp [hr]), hstep, if_neg (hk q (by simp)).symm]
    · have hany : (l.any fun p => fbGet (drawCell c q.1 q.2).fb p.1 && p.2) = l.any fun p => fbGet c.fb p.1 && p.2 := by
        rw [Bool.eq_iff_iff, List.any_eq_true, List.any_eq_true]
        constructor <;> rintro ⟨p, hpl, h⟩ <;> refine ⟨p, hpl, ?_⟩
        · rwa [hstep, if_neg (hp.1 p hpl).symm] at h
        · rwa [hstep, if_neg (hp.1 p hpl).symm]
      rw [h3, hany, List.any_cons]
      simp [drawCell, Bool.or_assoc]

/-- The whole sprite (R131): each cell of it XORed with its bit, every other cell as before, a hit when a lit cell met a bit 1. -/
theorem drawSprite_spec (m : Memory) (base x0 y0 n : Nat) (c : Canvas) (hn : n < 16) :
    (∀ row, row < n → ∀ col, col < 8 →
      fbGet (drawCells c (spriteCells m base x0 y0 0 n)).fb (cellIndex x0 y0 row col) =
        (fbGet c.fb (cellIndex x0 y0 row col) ^^ spriteBit (m.read (base + row)) col)) ∧
    (∀ k, (∀ row, row < n → ∀ col, col < 8 → cellIndex x0 y0 row col ≠ k) →
      fbGet (drawCells c (spriteCells m base x0 y0 0 n)).fb k = fbGet c.fb k) ∧
    ((drawCells c (spriteCells m base x0 y0 0 n)).hit = true ↔
      c.hit = true ∨ ∃ row, row < n ∧ ∃ col, col < 8 ∧ fbGet c.fb (cellIndex x0 y0 row col) = true ∧
        spriteBit (m.read (base + row)) col = true) := by
  have hpw := pairwise_spriteCells m base x0 y0 n 0 (by omega)
  have hlt : ∀ p ∈ spriteCells m base x0 y0 0 n, p.1 < 2048 := by
    intro p hp
    obtain ⟨r, -, -, col, -, rfl⟩ := mem_spriteCells.1 hp
    exact cellIndex_lt _ _ _ _
  obtain ⟨h1, h2, h3⟩ := drawCells_spec _ c hpw hlt
  refine ⟨fun row hr col hc => ?_, fun k hk => h2 k fun p hp => ?_, ?_⟩
  · exact h1 (_, _) (mem_spriteCells.2 ⟨row, by omega, by omega, col, hc, rfl⟩)
  · obtain ⟨r, -, hr, col, hc, rfl⟩ := mem_spriteCells.1 hp
    exact hk r (by omega) col hc
  · rw [h3, Bool.or_eq_true, List.any_eq_true]
    refine or_congr Iff.rfl ⟨?_, ?_⟩
    · rintro ⟨p, hp, h⟩
      obtain ⟨r, -, hr, col, hc, rfl⟩ := mem_spriteCells.1 hp
      exact ⟨r, by omega, col, hc, by simpa using h⟩
    · rintro ⟨r, hr, col, hc, hb⟩
      exact ⟨_, mem_spriteCells.2 ⟨r, by omega, by omega, col, hc, rfl⟩, by simpa using hb⟩

end Sys2Proof.Machine
end

