-- ==== Sys2Proof/Laws/Machine.lean ====
section
/-! SUPPORT. What each shared operation and each stopping meaning can do, said once: the fetch, a commit, the stores, the block
load, the sprite, and the host's calls. -/

namespace Sys2Proof.Machine

/-- Equal outcomes have equal next states. -/
theorem next_inj {s t : State} (h : (Host.Outcome.next s : Host.Outcome State Fault Refusal) = .next t) : s = t := by
  injection h

/-- The three kinds of run state (R18). -/
theorem Run.cases (r : Run) : r = .halted ∨ (∃ x, r = .awaitingKey x) ∨ r = .running := by
  cases r <;> simp

/-! ## Fetch (R46) -/

/-- Up to 4093 the fetch gives the two bytes at `PC` and advances `PC` by 2. -/
theorem State.fetch_ok (s : State) (h : s.pc.toNat ≤ 4093) : s.fetch = .ok (s.opcodeAtPC, { s with pc := s.pc + 2 }) := by
  have h1 : ¬ s.pc.toNat ≥ 4096 := by omega
  have h2 : ¬ (s.pc + 2).toNat ≥ 4096 := by
    rw [BitVec.toNat_add]; simp; omega
  simp only [State.fetch, Config.memSize, if_neg h1, if_neg h2, memRead_ok s.mem (show s.pc.toNat < 4096 by omega),
    memRead_ok s.mem (show s.pc.toNat + 1 < 4096 by omega)]
  rfl

/-- From 4094 on the fetch raises `AddressOutOfRange`. -/
theorem State.fetch_error (s : State) (h : 4094 ≤ s.pc.toNat) : s.fetch = .error .addressOutOfRange := by
  by_cases h1 : s.pc.toNat ≥ 4096
  · simp [State.fetch, Config.memSize, h1]
  · have hr : memRead s.mem s.pc.toNat = .ok (s.mem.read s.pc.toNat) := memRead_ok s.mem (by omega)
    by_cases h2 : s.pc.toNat = 4095
    · have hr' : memRead s.mem (s.pc.toNat + 1) = .error .addressOutOfRange := memRead_error s.mem (by omega)
      simp only [State.fetch, Config.memSize, if_neg h1, hr, hr']
    · have h3 : (s.pc + 2).toNat ≥ 4096 := by
        rw [BitVec.toNat_add]; simp; omega
      have hr' : memRead s.mem (s.pc.toNat + 1) = .ok (s.mem.read (s.pc.toNat + 1)) := memRead_ok s.mem (by omega)
      simp only [State.fetch, Config.memSize, if_neg h1, hr, hr', if_pos h3]

/-! ## Meanings that may raise -/

@[simp] theorem State.commit_ok (s t : State) (i : Instr) : s.commit i (.ok t) = .next t := rfl
@[simp] theorem State.commit_error (s : State) (i : Instr) (k : Fault) : s.commit i (.error k) = .next (s.raiseIn i k) := rfl

/-- A store of bytes inside memory at `I`: the bytes read back, every other address is as before, nothing else changes. -/
theorem State.storeAtI_ok (s : State) (bytes : List Byte) (hm : s.mem.wf) (h : s.i.toNat + bytes.length ≤ 4096) :
    ∃ m, s.storeAtI bytes = .ok { s with mem := m } ∧ m.wf ∧
      (∀ k (hk : k < bytes.length), m.read (s.i.toNat + k) = bytes[k]) ∧
      (∀ c, (c < s.i.toNat ∨ s.i.toNat + bytes.length ≤ c) → m.read c = s.mem.read c) := by
  obtain ⟨m, he, h'⟩ := memWriteBytes_ok bytes s.mem (s.effAddr 0) hm (by simpa [State.effAddr] using h)
  exact ⟨m, by simp [State.storeAtI, he], by simpa [State.effAddr] using h'⟩

/-- A store that leaves memory raises `AddressOutOfRange`. -/
theorem State.storeAtI_error (s : State) (bytes : List Byte) (h0 : bytes ≠ []) (h : 4096 < s.i.toNat + bytes.length) :
    s.storeAtI bytes = .error .addressOutOfRange := by
  simp [State.storeAtI, memWriteBytes_error bytes s.mem (s.effAddr 0) h0 (by simpa [State.effAddr] using h)]

/-- A store that ends well changes memory alone and keeps its form. -/
theorem State.storeAtI_cases {s t : State} {bytes : List Byte} (h : s.storeAtI bytes = .ok t) :
    ∃ m, t = { s with mem := m } ∧ memWriteBytes s.mem (s.effAddr 0) bytes = .ok m := by
  unfold State.storeAtI at h
  split at h
  · rename_i m hm
    exact ⟨m, by injection h with h; exact h.symm, hm⟩
  · cases h

/-- A block load inside memory. -/
theorem State.loadAtI_ok (s : State) (x : Reg) (h : s.i.toNat + x.val < 4096) :
    s.loadAtI x = .ok (s.loadRegs ((List.range (x.val + 1)).map fun k => s.mem.read (s.i.toNat + k))) := by
  simp [State.loadAtI, State.effAddr, memReadBytes_ok s.mem (x.val + 1) s.i.toNat (by omega)]

/-- A block load that leaves memory raises `AddressOutOfRange`. -/
theorem State.loadAtI_error (s : State) (x : Reg) (h : 4096 ≤ s.i.toNat + x.val) :
    s.loadAtI x = .error .addressOutOfRange := by
  simp [State.loadAtI, State.effAddr, memReadBytes_error s.mem (x.val + 1) s.i.toNat (by omega) (by omega)]

/-- The canvas `DRW` leaves when its rows lie inside memory. -/
def State.sprite (s : State) (x y : Reg) (n : BitVec 4) : Canvas :=
  drawCells { fb := s.fb, hit := false } (spriteCells s.mem s.i.toNat (s.drawX x) (s.drawY y) 0 n.toNat)

/-- `DRW` inside memory (R131). -/
theorem execDrw_ok (x y : Reg) (n : BitVec 4) (s : State) (h : n.toNat = 0 ∨ s.i.toNat + n.toNat ≤ 4096) :
    execDrw x y n s = .next { s.setReg VF (collisionFlag (s.sprite x y n).hit) with
      fb := (s.sprite x y n).fb, displayUpdated := true } := by
  simp [execDrw, State.effAddr,
    drawRows_ok s.mem s.i.toNat (s.drawX x) (s.drawY y) n.toNat 0 { fb := s.fb, hit := false } (by omega), State.sprite]

/-- `DRW` that leaves memory (R131, R163). -/
theorem execDrw_error (x y : Reg) (n : BitVec 4) (s : State) (h0 : 0 < n.toNat) (h : 4096 < s.i.toNat + n.toNat) :
    execDrw x y n s = .next (s.raiseIn (.drw x y n) .addressOutOfRange) := by
  simp [execDrw, State.effAddr,
    drawRows_error s.mem s.i.toNat (s.drawX x) (s.drawY y) n.toNat 0 { fb := s.fb, hit := false } h0 (by omega)]

/-- `RET` with a return address on the stack (R81). -/
theorem execRet_ok (s : State) (h : s.stack ≠ []) :
    execRet s = .next { s with pc := s.stack.getLast h, stack := s.stack.dropLast } := by
  simp [execRet, List.getLast?_eq_getLast_of_ne_nil h]

/-- Every meaning answers a next state: a fatal error is taken, never answered as a fault (R167, R71). -/
theorem exec_is_next (i : Instr) (s : State) : ∃ t, exec i s = .next t := by
  have hc : ∀ (j : Instr) (r : Except Fault State), ∃ t, s.commit j r = .next t := by
    intro j r
    cases r with
    | ok t => exact ⟨t, rfl⟩
    | error k => exact ⟨_, rfl⟩
  cases i with
  | ret =>
    by_cases h : s.stack = []
    · exact ⟨_, by simp [exec, execRet, h]; rfl⟩
    · exact ⟨_, execRet_ok s h⟩
  | call nnn =>
    by_cases h : s.stack.length ≥ 16
    · exact ⟨_, by simp [exec, execCall, Config.stackDepth, h]; rfl⟩
    · exact ⟨_, by simp [exec, execCall, Config.stackDepth, h]; rfl⟩
  | drw x y n => exact hc _ _
  | ldBVx x => exact hc _ _
  | ldMemVx x => exact hc _ _
  | ldVxMem x => exact hc _ _
  | _ => exact ⟨_, rfl⟩

/-- A store of bytes inside memory ends well, whatever the form of the memory. -/
theorem State.storeAtI_isOk (s : State) (bytes : List Byte) (h : s.i.toNat + bytes.length ≤ 4096) :
    ∃ m, s.storeAtI bytes = .ok { s with mem := m } := by
  obtain ⟨m, hm⟩ := memWriteBytes_isOk bytes s.mem (s.effAddr 0) (by simpa [State.effAddr] using h)
  exact ⟨m, by simp [State.storeAtI, hm]⟩

/-! ## What a meaning can do, said once for all instructions -/

/-- Where the fatal-error condition of R161 to R163 holds, the meaning takes that fatal error (R167). -/
theorem exec_of_fatal {i : Instr} {s : State} {k : Fault} (h : fatalKind i s = some k) :
    exec i s = .next (s.raiseIn i k) := by
  cases i with
  | call nnn =>
    by_cases hc : 16 ≤ s.stack.length <;> simp [fatalKind, hc] at h
    subst h; simp [exec, execCall, Config.stackDepth, hc]
  | ret =>
    by_cases hc : s.stack = [] <;> simp [fatalKind, hc] at h
    subst h; simp [exec, execRet, hc]
  | drw x y n =>
    by_cases hc : 0 < n.toNat ∧ 4096 ≤ s.i.toNat + n.toNat - 1 <;> simp [fatalKind, hc] at h
    subst h; simp [exec, execDrw_error x y n s hc.1 (by omega)]
  | ldBVx x =>
    by_cases hc : 4096 ≤ s.i.toNat + 2 <;> simp [fatalKind, hc] at h
    subst h
    simp [exec, execLdBVx,
      State.storeAtI_error s (bcdDigits (s.reg x)) (by simp [bcdDigits]) (by simp [bcdDigits]; omega)]
  | ldMemVx x =>
    by_cases hc : 4096 ≤ s.i.toNat + x.val <;> simp [fatalKind, hc] at h
    subst h
    have h0 : s.regsUpTo x ≠ [] := by
      intro e
      have := State.length_regsUpTo s x
      rw [e] at this
      simp at this
    simp [exec, execLdMemVx, State.storeAtI_error s (s.regsUpTo x) h0 (by simp; omega)]
  | ldVxMem x =>
    by_cases hc : 4096 ≤ s.i.toNat + x.val <;> simp [fatalKind, hc] at h
    subst h; simp [exec, execLdVxMem, State.loadAtI_error s x hc]
  | _ => simp [fatalKind] at h

/-- `RET` with no fatal error has a return address to pop. -/
theorem stack_ne_nil_of_no_fatal {s : State} (h : fatalKind .ret s = none) : s.stack ≠ [] := by
  intro e; simp [fatalKind, e] at h

/-- `CALL` with no fatal error (R83). -/
theorem execCall_ok (nnn : BitVec 12) (s : State) (h : s.stack.length < 16) :
    execCall nnn s = .next { s with stack := s.stack ++ [s.pc], pc := addrImm nnn } := by
  have h' : ¬ 16 ≤ s.stack.length := by omega
  simp [execCall, Config.stackDepth, h']

/-- `LD B, Vx` inside memory stores three bytes and changes memory alone. -/
theorem execLdBVx_ok (x : Reg) (s : State) (h : s.i.toNat + 2 < 4096) :
    ∃ m, execLdBVx x s = .next { s with mem := m } ∧ memWriteBytes s.mem s.i.toNat (bcdDigits (s.reg x)) = .ok m := by
  obtain ⟨m, hm⟩ := memWriteBytes_isOk (bcdDigits (s.reg x)) s.mem s.i.toNat (by simp [bcdDigits]; omega)
  exact ⟨m, by simp [execLdBVx, State.storeAtI, State.effAddr, hm], hm⟩

/-- `LD [I], Vx` inside memory stores `V[0]` to `V[x]` and changes memory alone. -/
theorem execLdMemVx_ok (x : Reg) (s : State) (h : s.i.toNat + x.val < 4096) :
    ∃ m, execLdMemVx x s = .next { s with mem := m } ∧ memWriteBytes s.mem s.i.toNat (s.regsUpTo x) = .ok m := by
  obtain ⟨m, hm⟩ := memWriteBytes_isOk (s.regsUpTo x) s.mem s.i.toNat (by simp; omega)
  exact ⟨m, by simp [execLdMemVx, State.storeAtI, State.effAddr, hm], hm⟩

/-- `LD Vx, [I]` inside memory loads registers and changes the register file alone. -/
theorem execLdVxMem_ok (x : Reg) (s : State) (h : s.i.toNat + x.val < 4096) :
    execLdVxMem x s = .next (s.loadRegs ((List.range (x.val + 1)).map fun k => s.mem.read (s.i.toNat + k))) := by
  simp [execLdVxMem, State.loadAtI_ok s x h]

/-- Short of a fatal error: what each instruction leaves as it was, field by field. -/
theorem exec_frame {i : Instr} {s t : State} (hf : fatalKind i s = none) (h : exec i s = .next t) :
    (t.fault = s.fault ∧ t.calls = s.calls ∧ t.again = s.again ∧ t.now = s.now ∧ t.draws = s.draws) ∧
    (t.run = s.run ∨ ∃ x, i = .ldVxK x ∧ t.run = .awaitingKey x) ∧
    (t.fb = s.fb ∨ i.isDisplay = true) ∧
    (t.displayUpdated = if i.isDisplay then true else s.displayUpdated) ∧
    (t.mem = s.mem ∨ ∃ x, i = .ldBVx x ∨ i = .ldMemVx x) ∧
    (t.stack = s.stack ∨ i = .ret ∨ ∃ nnn, i = .call nnn) ∧
    (t.i = s.i ∨ (∃ nnn, i = .ldI nnn) ∨ ∃ x, i = .addIVx x ∨ i = .ldFVx x) ∧
    (t.dt = s.dt ∨ ∃ x, i = .ldDTVx x ∧ t.dt = s.reg x) ∧
    (t.st = s.st ∨ ∃ x, i = .ldSTVx x ∧ t.st = s.reg x) ∧
    (t.pc = s.pc ∨ i.writesPC = true) := by
  cases i with
  | call nnn =>
    have hc : s.stack.length < 16 := by
      by_contra hc
      simp [fatalKind, show 16 ≤ s.stack.length by omega] at hf
    obtain rfl := next_inj ((execCall_ok nnn s hc).symm.trans h)
    simp [Instr.isDisplay, Instr.writesPC]
  | ret =>
    obtain rfl := next_inj ((execRet_ok s (stack_ne_nil_of_no_fatal hf)).symm.trans h)
    simp [Instr.isDisplay, Instr.writesPC]
  | drw x y n =>
    have hc : n.toNat = 0 ∨ s.i.toNat + n.toNat ≤ 4096 := by
      by_contra hc
      have h' : 0 < n.toNat ∧ 4096 ≤ s.i.toNat + n.toNat - 1 := by omega
      simp [fatalKind, h'] at hf
    obtain rfl := next_inj ((execDrw_ok x y n s hc).symm.trans h)
    simp [Instr.isDisplay]
  | ldBVx x =>
    have hc : s.i.toNat + 2 < 4096 := by
      by_contra hc
      have h' : 4096 ≤ s.i.toNat + 2 := by omega
      simp [fatalKind, h'] at hf
    obtain ⟨m, he, -⟩ := execLdBVx_ok x s hc
    obtain rfl := next_inj (he.symm.trans h)
    simp [Instr.isDisplay]
  | ldMemVx x =>
    have hc : s.i.toNat + x.val < 4096 := by
      by_contra hc
      have h' : 4096 ≤ s.i.toNat + x.val := by omega
      simp [fatalKind, h'] at hf
    obtain ⟨m, he, -⟩ := execLdMemVx_ok x s hc
    obtain rfl := next_inj (he.symm.trans h)
    simp [Instr.isDisplay]
  | ldVxMem x =>
    have hc : s.i.toNat + x.val < 4096 := by
      by_contra hc
      have h' : 4096 ≤ s.i.toNat + x.val := by omega
      simp [fatalKind, h'] at hf
    obtain rfl := next_inj ((execLdVxMem_ok x s hc).symm.trans h)
    simp [Instr.isDisplay]
  | _ =>
    obtain rfl := next_inj h
    simp [Instr.isDisplay, Instr.writesPC]

/-! ## The host's calls (R25) -/

/-- When the next call is a `cycle`, the step is that `cycle`. -/
theorem step_of_cycle {s : State} {a : CycleInput} {rest : List HostCall} (h : s.nextCall = (.cycle a, rest)) :
    step s = (s.take rest).cycle a := by simp [step, h, State.hostCall]

/-- When the next call is a tick, the step is that tick. -/
theorem step_of_tick {s : State} {rest : List HostCall} (h : s.nextCall = (.tick, rest)) :
    step s = .next (s.take rest).tickTimers := by simp [step, h, State.hostCall]

/-- When the next call is a `reset_load`, the step is that `reset_load`. -/
theorem step_of_reset {s : State} {rom : List Byte} {rest : List HostCall} (h : s.nextCall = (.resetLoad rom, rest)) :
    step s = (s.take rest).resetLoad rom := by simp [step, h, State.hostCall]

/-- The next call is a `cycle`, a tick or a `reset_load` (R25). -/
theorem State.nextCall_cases (s : State) : s.nextIsCycle ∨ s.nextIsTick ∨ s.nextIsReset := by
  cases h : s.nextCall with
  | mk c rest =>
    cases c with
    | cycle a => exact .inl ⟨a, rest, h⟩
    | tick => exact .inr (.inl ⟨rest, h⟩)
    | resetLoad rom => exact .inr (.inr ⟨rom, rest, h⟩)

/-- A `cycle` in `Running`. -/
theorem State.cycle_running {s : State} (a : CycleInput) (h : s.run = .running) :
    s.cycle a = (s.beginCycle a).fetchDecodeExecute := by simp [State.cycle, h]

/-- A `cycle` in `AwaitingKey`. -/
theorem State.cycle_awaiting {s : State} {r : Reg} (a : CycleInput) (h : s.run = .awaitingKey r) :
    s.cycle a = .next ((s.beginCycle a).keyCapture r) := by simp [State.cycle, h]

/-- A `cycle` in `Halted`. -/
theorem State.cycle_halted {s : State} (a : CycleInput) (h : s.run = .halted) : s.cycle a = .next s := by
  simp [State.cycle, h]

/-- A fetch fault (R46, R163). -/
theorem State.fetchDecodeExecute_error (s : State) (h : 4094 ≤ s.pc.toNat) :
    s.fetchDecodeExecute = .next (s.raise .addressOutOfRange s.pc none) := by
  simp [State.fetchDecodeExecute, State.fetch_error s h]

/-- A fetch that passes both checks is followed by the meaning of the instruction (R28). -/
theorem State.fetchDecodeExecute_ok (s : State) (h : s.pc.toNat ≤ 4093) :
    s.fetchDecodeExecute = exec s.instrAtPC { s with pc := s.pc + 2 } := by
  simp [State.fetchDecodeExecute, State.fetch_ok s h, State.instrAtPC]

/-- The capture writes the lowest pressed key and resumes, or changes nothing (R27). -/
theorem State.keyCapture_cases (s : State) (r : Reg) :
    (∃ k, lowestKey s.keysNow = some k ∧ s.keyCapture r = { s.setReg r (BitVec.ofNat 8 k) with run := .running }) ∨
    (lowestKey s.keysNow = none ∧ s.keyCapture r = s) := by
  unfold State.keyCapture
  split
  · exact .inl ⟨_, by assumption, rfl⟩
  · exact .inr ⟨by assumption, rfl⟩

/-- `tick_timers` outside `Halted` (R174). -/
theorem State.tickTimers_of_ne {s : State} (h : s.run ≠ .halted) :
    s.tickTimers = { s with dt := decTimer s.dt, st := decTimer s.st } := by
  unfold State.tickTimers
  split <;> simp_all

/-- `reset_load` of a ROM that fits (R190). -/
theorem State.resetLoad_ok (s : State) (rom : List Byte) (h : rom.length ≤ 3584) :
    ∃ m, s.resetLoad rom = .next { State.reset with mem := m, calls := s.calls, again := s.again, draws := s.draws } ∧ m.wf ∧
      (∀ k (hk : k < rom.length), m.read (0x200 + k) = rom[k]) ∧
      (∀ c, (c < 0x200 ∨ 0x200 + rom.length ≤ c) → m.read c = Memory.unlisted c) := by
  obtain ⟨m, he, hwf, hin, hout⟩ := memWriteBytes_ok rom [] 0x200 Memory.wf_nil (by omega)
  have h' : ¬ Config.progBase + rom.length > Config.memSize := by
    simp only [Config.progBase, Config.memSize]; omega
  refine ⟨m, ?_, hwf, hin, fun c hc => hout c hc⟩
  have he' : memWriteBytes State.reset.mem Config.progBase rom = .ok m := he
  simp only [State.resetLoad, if_neg h', he']

/-- `reset_load` of a ROM that does not fit (R166). -/
theorem State.resetLoad_refused (s : State) (rom : List Byte) (h : 3584 < rom.length) :
    s.resetLoad rom = .refused .romTooLarge := by
  have h' : Config.progBase + rom.length > Config.memSize := by
    simp only [Config.progBase, Config.memSize]; omega
  simp only [State.resetLoad, if_pos h']

/-- A tick changes the two timers alone (R174). -/
theorem State.tickTimers_eq (s : State) : ∃ d e, s.tickTimers = { s with dt := d, st := e } := by
  unfold State.tickTimers
  split <;> exact ⟨_, _, rfl⟩

/-- A wait or a capture changes registers and `RUN` alone, and halts nothing (R27). -/
theorem State.keyCapture_eq (s : State) (r : Reg) (h : s.run = .awaitingKey r) :
    ∃ v run, s.keyCapture r = { s with v := v, run := run } ∧ run ≠ .halted := by
  rcases s.keyCapture_cases r with ⟨k, -, hk⟩ | ⟨-, hk⟩
  · exact ⟨_, _, hk, fun e => nomatch e⟩
  · exact ⟨s.v, s.run, hk, by simp [h]⟩

/-- A `cycle` that answers a next state: what each run state makes of it. -/
theorem cycle_step_cases {s t : State} {a : CycleInput} {rest : List HostCall} (hn : s.nextCall = (.cycle a, rest))
    (h : step s = .next t) :
    (s.run = .halted ∧ t = s.take rest) ∨
    (∃ r, s.run = .awaitingKey r ∧ t = ((s.take rest).beginCycle a).keyCapture r) ∨
    (s.run = .running ∧ 4094 ≤ s.pc.toNat ∧ t = ((s.take rest).beginCycle a).raise .addressOutOfRange s.pc none) ∨
    (s.fetchable ∧ exec s.instrAtPC (s.executing a rest) = .next t) := by
  rw [step_of_cycle hn] at h
  rcases Run.cases s.run with hr | ⟨r, hr⟩ | hr
  · rw [State.cycle_halted (s := s.take rest) a hr] at h
    exact .inl ⟨hr, (next_inj h).symm⟩
  · rw [State.cycle_awaiting (s := s.take rest) a hr] at h
    exact .inr (.inl ⟨r, hr, (next_inj h).symm⟩)
  · rw [State.cycle_running (s := s.take rest) a hr] at h
    by_cases hp : s.pc.toNat ≤ 4093
    · rw [State.fetchDecodeExecute_ok _ (by exact hp)] at h
      exact .inr (.inr (.inr ⟨⟨hr, hp⟩, h⟩))
    · have hp' : 4094 ≤ s.pc.toNat := by omega
      rw [State.fetchDecodeExecute_error _ (by exact hp')] at h
      exact .inr (.inr (.inl ⟨hr, hp', (next_inj h).symm⟩))

/-- A step that answers a next state: what each call and each run state makes of it. -/
theorem step_cases {s t : State} (h : step s = .next t) :
    (∃ a rest, s.nextCall = (.cycle a, rest) ∧
      ((s.run = .halted ∧ t = s.take rest) ∨
       (∃ r, s.run = .awaitingKey r ∧ t = ((s.take rest).beginCycle a).keyCapture r) ∨
       (s.run = .running ∧ 4094 ≤ s.pc.toNat ∧ t = ((s.take rest).beginCycle a).raise .addressOutOfRange s.pc none) ∨
       (s.fetchable ∧ exec s.instrAtPC (s.executing a rest) = .next t))) ∨
    (∃ rest, s.nextCall = (.tick, rest) ∧ t = (s.take rest).tickTimers) ∨
    (∃ rom rest m, s.nextCall = (.resetLoad rom, rest) ∧ m.wf ∧
      t = { State.reset with mem := m, calls := rest, again := s.again, draws := s.draws + 1 }) := by
  rcases s.nextCall_cases with ⟨a, rest, hn⟩ | ⟨rest, hn⟩ | ⟨rom, rest, hn⟩
  · exact .inl ⟨a, rest, hn, cycle_step_cases hn h⟩
  · rw [step_of_tick hn] at h
    exact .inr (.inl ⟨rest, hn, (next_inj h).symm⟩)
  · rw [step_of_reset hn] at h
    by_cases hl : rom.length ≤ 3584
    · obtain ⟨m, he, hwf, -, -⟩ := State.resetLoad_ok (s.take rest) rom hl
      rw [he] at h
      exact .inr (.inr ⟨rom, rest, m, hn, hwf, (next_inj h).symm⟩)
    · rw [State.resetLoad_refused _ rom (by omega)] at h
      cases h

/-- A `cycle` in `Running` whose fetch passes is the meaning of the instruction at `PC` (R28). -/
theorem step_of_fetchable {s : State} {a : CycleInput} {rest : List HostCall} (hn : s.nextCall = (.cycle a, rest))
    (hf : s.fetchable) : step s = exec s.instrAtPC (s.executing a rest) := by
  rw [step_of_cycle hn, State.cycle_running a (show (s.take rest).run = .running from hf.1),
    State.fetchDecodeExecute_ok _ (by exact hf.2)]
  rfl

/-- A `cycle` that does not end in `Halted`: a wait or a capture, or an instruction without a fatal error. -/
theorem cycle_cases {s t : State} (hn : s.nextIsCycle) (h : step s = .next t) (ht : t.run ≠ .halted) :
    (∃ a rest r, s.run = .awaitingKey r ∧ t = ((s.take rest).beginCycle a).keyCapture r) ∨
    (∃ a rest, s.nextCall = (.cycle a, rest) ∧ s.fetchable ∧ fatalKind s.instrAtPC (s.executing a rest) = none ∧
      exec s.instrAtPC (s.executing a rest) = .next t) := by
  obtain ⟨a, rest, hn⟩ := hn
  rcases cycle_step_cases hn h with ⟨h1, rfl⟩ | ⟨r, h1, rfl⟩ | ⟨-, -, rfl⟩ | ⟨h1, h2⟩
  · exact absurd h1 ht
  · exact .inl ⟨a, rest, r, h1, rfl⟩
  · exact absurd rfl ht
  · cases hk : fatalKind s.instrAtPC (s.executing a rest) with
    | some k =>
      rw [exec_of_fatal hk] at h2
      obtain rfl := next_inj h2
      exact absurd rfl ht
    | none => exact .inr ⟨a, rest, hn, h1, hk, h2⟩

/-- A meaning leaves the host's schedule and the counter of calls alone. -/
theorem exec_schedule {i : Instr} {s t : State} (h : exec i s = .next t) :
    t.calls = s.calls ∧ t.again = s.again ∧ t.draws = s.draws := by
  cases hk : fatalKind i s with
  | some k =>
    rw [exec_of_fatal hk] at h
    obtain rfl := next_inj h
    exact ⟨rfl, rfl, rfl⟩
  | none =>
    obtain ⟨⟨-, h1, h2, -, h3⟩, -⟩ := exec_frame hk h
    exact ⟨h1, h2, h3⟩

/-- Every step moves the host's schedule on by one call and nothing else of it (log 1). -/
theorem step_schedule {s t : State} (h : step s = .next t) :
    t.calls = s.nextCall.2 ∧ t.again = s.again ∧ t.draws = s.draws + 1 := by
  rcases step_cases h with ⟨a, rest, hn, hc⟩ | ⟨rest, hn, rfl⟩ | ⟨rom, rest, m, hn, -, rfl⟩
  · rw [hn]
    rcases hc with ⟨-, rfl⟩ | ⟨r, hr, rfl⟩ | ⟨-, -, rfl⟩ | ⟨-, he⟩
    · exact ⟨rfl, rfl, rfl⟩
    · obtain ⟨v, run, hk, -⟩ := State.keyCapture_eq ((s.take rest).beginCycle a) r hr
      rw [hk]
      exact ⟨rfl, rfl, rfl⟩
    · exact ⟨rfl, rfl, rfl⟩
    · exact exec_schedule he
  · obtain ⟨d, e, ht⟩ := (s.take rest).tickTimers_eq
    rw [hn, ht]
    exact ⟨rfl, rfl, rfl⟩
  · rw [hn]
    exact ⟨rfl, rfl, rfl⟩

/-- A `cycle` and a tick always answer a next state; only a `reset_load` can be refused (R166, R167). -/
theorem step_is_next {s : State} (h : ¬ s.nextIsReset) : ∃ t, step s = .next t := by
  rcases s.nextCall_cases with ⟨a, rest, hn⟩ | ⟨rest, hn⟩ | hr
  · rcases Run.cases s.run with hr | ⟨r, hr⟩ | hr
    · exact ⟨_, (step_of_cycle hn).trans (State.cycle_halted a hr)⟩
    · exact ⟨_, (step_of_cycle hn).trans (State.cycle_awaiting a hr)⟩
    · by_cases hp : s.pc.toNat ≤ 4093
      · obtain ⟨t, ht⟩ := exec_is_next s.instrAtPC (s.executing a rest)
        exact ⟨t, (step_of_fetchable hn ⟨hr, hp⟩).trans ht⟩
      · have hp' : 4094 ≤ s.pc.toNat := by omega
        rw [step_of_cycle hn, State.cycle_running a (show (s.take rest).run = .running from hr),
          State.fetchDecodeExecute_error _ (by exact hp')]
        exact ⟨_, rfl⟩
  · exact ⟨_, step_of_tick hn⟩
  · exact absurd hr h

/-! ## Runs (R198) -/

/-- One more call of a run. -/
theorem State.after_succ {s u : State} {n : Nat} :
    s.after (n + 1) = some u ↔ ∃ t, s.after n = some t ∧ step t = .next u := by
  simp only [State.after]
  cases s.after n with
  | none => simp
  | some t => cases h : step t <;> simp [h]

/-- What holds at the start and is kept by every step holds after every number of calls. -/
theorem State.after_induction {s : State} {P : State → Prop} (h0 : P s)
    (hs : ∀ t u, P t → step t = .next u → P u) : ∀ n t, s.after n = some t → P t := by
  intro n
  induction n with
  | zero => intro t h; cases h; exact h0
  | succ n ih =>
    intro u h
    obtain ⟨t, ht, hu⟩ := State.after_succ.1 h
    exact hs t u (ih t ht) hu

/-- A run goes on from any of its states. -/
theorem State.after_add {s t : State} {n : Nat} (h : s.after n = some t) : ∀ m, s.after (n + m) = t.after m := by
  intro m
  induction m with
  | zero => exact h
  | succ m ih =>
    show s.after (n + m + 1) = t.after (m + 1)
    rw [State.after, ih, State.after]

/-- A run in which the host never resets goes on for ever. -/
theorem State.after_isSome {s : State} (h : s.neverReset) : ∀ n, ∃ t, s.after n = some t := by
  intro n
  induction n with
  | zero => exact ⟨s, rfl⟩
  | succ n ih =>
    obtain ⟨t, ht⟩ := ih
    obtain ⟨u, hu⟩ := step_is_next (h n t ht)
    exact ⟨u, State.after_succ.2 ⟨t, ht, hu⟩⟩

/-- The rest of a run has the fairness of the whole, and no reset either. -/
theorem State.fairHost_after {s t : State} {n : Nat} (h : s.after n = some t) (hf : s.fairHost) (hr : s.neverReset) :
    t.fairHost ∧ t.neverReset := by
  have shift : ∀ k m, n + k ≤ m → t.after (m - n) = s.after m := fun k m hm => by
    rw [← State.after_add h, Nat.add_sub_cancel' (by omega)]
  refine ⟨⟨fun k => ?_, fun k => ?_⟩, fun k u hu => hr (n + k) u ((State.after_add h k).trans hu)⟩
  · obtain ⟨m, hm, u, hu, hc⟩ := hf.1 (n + k)
    exact ⟨m - n, by omega, u, (shift k m hm).trans hu, hc⟩
  · obtain ⟨m, hm, u, hu, hc⟩ := hf.2 (n + k)
    exact ⟨m - n, by omega, u, (shift k m hm).trans hu, hc⟩

/-! ## The waits (R202) -/

/-- A timer's tick: one less, floored at 0 (R174). -/
theorem decTimer_toNat (b : Byte) : (decTimer b).toNat = b.toNat - 1 := by
  simp only [decTimer]
  split <;> bv_omega

/-- A tick outside `Halted` (R174). -/
theorem step_tick {s : State} {rest : List HostCall} (hn : s.nextCall = (.tick, rest)) (hr : s.run ≠ .halted) :
    step s = .next { s.take rest with dt := decTimer s.dt, st := decTimer s.st } := by
  rw [step_of_tick hn, State.tickTimers_of_ne (by exact hr)]
  rfl

/-- The delay loop depends on memory alone. -/
theorem State.delayLoopAt_of_mem {s t : State} {a : Nat} {x : Reg} (h : t.mem = s.mem) (hl : s.delayLoopAt a x) :
    t.delayLoopAt a x := by
  unfold State.delayLoopAt at *
  rwa [h]

/-- One `cycle` at the head of the delay loop reads `DT` (R198). -/
theorem delayLoop_read {s : State} {a : Nat} {x : Reg} {input : CycleInput} {rest : List HostCall}
    (hn : s.nextCall = (.cycle input, rest)) (hr : s.run = .running) (hl : s.delayLoopAt a x) (hp : s.pc.toNat = a) :
    step s = .next ((s.executing input rest).setReg x s.dt) := by
  obtain ⟨ha, hi, -, -⟩ := hl
  have hi' : s.instrAtPC = .ldVxDT x := by rw [← hi, State.instrAtPC, State.opcodeAtPC, hp]
  rw [step_of_fetchable hn ⟨hr, by omega⟩, hi']
  rfl

/-- One `cycle` at the test of the delay loop leaves it when the value read is 0 (R198). -/
theorem delayLoop_test {s : State} {a : Nat} {x : Reg} {input : CycleInput} {rest : List HostCall}
    (hn : s.nextCall = (.cycle input, rest)) (hr : s.run = .running) (hl : s.delayLoopAt a x) (hp : s.pc.toNat = a + 2) :
    step s = .next ((s.executing input rest).skipIf (s.reg x == 0)) := by
  obtain ⟨ha, -, hi, -⟩ := hl
  have hi' : s.instrAtPC = .seImm x 0 := by rw [← hi, State.instrAtPC, State.opcodeAtPC, hp]
  rw [step_of_fetchable hn ⟨hr, by omega⟩, hi']
  rfl

/-- One `cycle` at the end of the delay loop goes back to its head (R198). -/
theorem delayLoop_back {s : State} {a : Nat} {x : Reg} {input : CycleInput} {rest : List HostCall}
    (hn : s.nextCall = (.cycle input, rest)) (hr : s.run = .running) (hl : s.delayLoopAt a x) (hp : s.pc.toNat = a + 4) :
    step s = .next { s.executing input rest with pc := BitVec.ofNat 16 a } := by
  obtain ⟨ha, -, -, nnn, hi, hb⟩ := hl
  have hi' : s.instrAtPC = .jp nnn := by rw [← hi, State.instrAtPC, State.opcodeAtPC, hp]
  rw [step_of_fetchable hn ⟨hr, by omega⟩, hi']
  have hw : addrImm nnn = BitVec.ofNat 16 a := by
    apply BitVec.eq_of_toNat_eq
    simp only [addrImm, BitVec.toNat_setWidth, BitVec.toNat_ofNat, hb]
  rw [← hw]
  rfl
/-- No key is pressed exactly when the scan finds none (R27). -/
theorem lowestKey_none {keys : Keys} : lowestKey keys = none ↔ ∀ k, k < 16 → keys.getLsbD k = false := by
  simp [lowestKey, Config.numKeys]

/-- The scan finds the lowest pressed key (R27). -/
theorem lowestKey_some {keys : Keys} {k : Nat} :
    lowestKey keys = some k ↔ k < 16 ∧ keys.getLsbD k = true ∧ ∀ j, j < k → keys.getLsbD j = false := by
  unfold lowestKey
  rw [List.find?_range_eq_some]
  simp only [Config.numKeys, List.mem_range, Bool.not_eq_eq_eq_not, Bool.not_true]
  tauto

/-! ## Placing an instruction -/

/-- A word is placed at an address from which it is executed. -/
theorem State.placeAddr_le (s : State) : s.placeAddr.toNat ≤ 4093 := by
  unfold State.placeAddr
  split
  · assumption
  · decide

/-- Placing a word keeps memory canonical. -/
theorem State.placeWord_wf (s : State) (op : Word) (h : s.mem.wf) : (s.placeWord op).mem.wf :=
  have ha := s.placeAddr_le
  Memory.wf_write _ (by omega) (Memory.wf_write _ (by omega) h)

/-- Placing a word keeps the invariant of a machine that has not failed. -/
theorem State.placeWord_inv {s : State} (op : Word) (h : s.Inv) (hr : s.run ≠ .halted) : (s.placeWord op).Inv where
  mem := s.placeWord_wf op h.mem
  depth := fun _ => h.depth hr
  fault := by simp [State.placeWord]
  display := fun e => nomatch e
  pc := fun _ => Nat.le_trans s.placeAddr_le (by decide)
  ret := fun _ => h.ret hr

end Sys2Proof.Machine
end

