-- ==== Sys2Proof/Laws/PerInstr.lean ====
section
/-! SUPPORT. Statements for all instructions, one lemma per constructor. The family `RoundTrip`: decoding the word of a well-formed
instruction gives the instruction back (R64, R65). -/

namespace Sys2Proof.Laws.RoundTrip

/-- Decoding `i`'s word gives `i`. -/
def Statement (i : Instr) : Prop := i.WellFormed → decodeWord (encode i) = i

theorem cls : Statement .cls := fun _ => by decide
theorem ret : Statement .ret := fun _ => by decide
theorem sys (nnn : BitVec 12) : Statement (.sys nnn) := fun h => by
  have h' : nnn ≠ 0x0E0#12 ∧ nnn ≠ 0x0EE#12 := by simpa [Instr.WellFormed, Instr.wellFormed] using h
  show decodeWord (formatNNN 0x0#4 nnn) = .sys nnn
  rw [decodeWord_group0 (by simp), decodeGroup0, fieldNNN_formatNNN]
  split
  · exact absurd rfl h'.1
  · exact absurd rfl h'.2
  · rfl
theorem jp (nnn : BitVec 12) : Statement (.jp nnn) := fun _ => by simp [decodeWord, encode]
theorem call (nnn : BitVec 12) : Statement (.call nnn) := fun _ => by simp [decodeWord, encode]
theorem seImm (x : Reg) (kk : Byte) : Statement (.seImm x kk) := fun _ => by simp [decodeWord, encode]
theorem sneImm (x : Reg) (kk : Byte) : Statement (.sneImm x kk) := fun _ => by simp [decodeWord, encode]
theorem seReg (x y : Reg) : Statement (.seReg x y) := fun _ => by simp [decodeWord, encode, decodeGroup5]
theorem ldImm (x : Reg) (kk : Byte) : Statement (.ldImm x kk) := fun _ => by simp [decodeWord, encode]
theorem addImm (x : Reg) (kk : Byte) : Statement (.addImm x kk) := fun _ => by simp [decodeWord, encode]
theorem ldReg (x y : Reg) : Statement (.ldReg x y) := fun _ => by simp [decodeWord, encode, decodeGroup8]
theorem orReg (x y : Reg) : Statement (.orReg x y) := fun _ => by simp [decodeWord, encode, decodeGroup8]
theorem andReg (x y : Reg) : Statement (.andReg x y) := fun _ => by simp [decodeWord, encode, decodeGroup8]
theorem xorReg (x y : Reg) : Statement (.xorReg x y) := fun _ => by simp [decodeWord, encode, decodeGroup8]
theorem addReg (x y : Reg) : Statement (.addReg x y) := fun _ => by simp [decodeWord, encode, decodeGroup8]
theorem subReg (x y : Reg) : Statement (.subReg x y) := fun _ => by simp [decodeWord, encode, decodeGroup8]
theorem shr (x y : Reg) : Statement (.shr x y) := fun _ => by simp [decodeWord, encode, decodeGroup8]
theorem subnReg (x y : Reg) : Statement (.subnReg x y) := fun _ => by simp [decodeWord, encode, decodeGroup8]
theorem shl (x y : Reg) : Statement (.shl x y) := fun _ => by simp [decodeWord, encode, decodeGroup8]
theorem sneReg (x y : Reg) : Statement (.sneReg x y) := fun _ => by simp [decodeWord, encode, decodeGroup9]
theorem ldI (nnn : BitVec 12) : Statement (.ldI nnn) := fun _ => by simp [decodeWord, encode]
theorem jpV0 (nnn : BitVec 12) : Statement (.jpV0 nnn) := fun _ => by simp [decodeWord, encode]
theorem rnd (x : Reg) (kk : Byte) : Statement (.rnd x kk) := fun _ => by simp [decodeWord, encode]
theorem drw (x y : Reg) (n : BitVec 4) : Statement (.drw x y n) := fun _ => by simp [decodeWord, encode]
theorem skp (x : Reg) : Statement (.skp x) := fun _ => by simp [decodeWord, encode, decodeGroupE]
theorem sknp (x : Reg) : Statement (.sknp x) := fun _ => by simp [decodeWord, encode, decodeGroupE]
theorem ldVxDT (x : Reg) : Statement (.ldVxDT x) := fun _ => by simp [decodeWord, encode, decodeGroupF]
theorem ldVxK (x : Reg) : Statement (.ldVxK x) := fun _ => by simp [decodeWord, encode, decodeGroupF]
theorem ldDTVx (x : Reg) : Statement (.ldDTVx x) := fun _ => by simp [decodeWord, encode, decodeGroupF]
theorem ldSTVx (x : Reg) : Statement (.ldSTVx x) := fun _ => by simp [decodeWord, encode, decodeGroupF]
theorem addIVx (x : Reg) : Statement (.addIVx x) := fun _ => by simp [decodeWord, encode, decodeGroupF]
theorem ldFVx (x : Reg) : Statement (.ldFVx x) := fun _ => by simp [decodeWord, encode, decodeGroupF]
theorem ldBVx (x : Reg) : Statement (.ldBVx x) := fun _ => by simp [decodeWord, encode, decodeGroupF]
theorem ldMemVx (x : Reg) : Statement (.ldMemVx x) := fun _ => by simp [decodeWord, encode, decodeGroupF]
theorem ldVxMem (x : Reg) : Statement (.ldVxMem x) := fun _ => by simp [decodeWord, encode, decodeGroupF]
theorem unknown (op : Word) : Statement (.unknown op) := fun h => by
  have h' : isUnknownWord op = true := h
  simp only [isUnknownWord, Bool.or_eq_true, Bool.and_eq_true, beq_iff_eq, bne_iff_ne, Bool.not_eq_true', ne_eq] at h'
  show decodeWord op = .unknown op
  rcases h' with (((⟨hc, hn⟩ | ⟨hc, hn⟩) | ⟨hc, hn⟩) | ⟨hc, hk⟩) | ⟨hc, hk⟩
  · rw [decodeWord_group5 hc, decodeGroup5, fieldN]
    split
    · exact absurd ‹_› hn
    · rfl
  · rw [decodeWord_group8 hc, decodeGroup8, fieldN]
    split <;> first | rfl | simp_all
  · rw [decodeWord_group9 hc, decodeGroup9, fieldN]
    split
    · exact absurd ‹_› hn
    · rfl
  · rw [decodeWord_groupE hc, decodeGroupE, fieldKK]
    split <;> first | rfl | simp_all
  · rw [decodeWord_groupF hc, decodeGroupF, fieldKK]
    split <;> first | rfl | simp_all

end Sys2Proof.Laws.RoundTrip
end

