-- ==== Sys2Proof/Tests/Slice0.lean ====
section
/-! SUPPORT. The model's own tests: the well-formedness smoke test, decoded words, one step of each instruction, and a witness for
the hypotheses of each obligation. Expected results are the vectors of spec/95_test_vectors.md (their ids stand in the comments) or the
encodings of 30_encoding.md R65. -/

namespace Sys2Proof.Tests

open Sys2Proof Sys2Proof.Machine

set_option Elab.async false

/-! ## Well-formedness: each check refuses an ill-formed term -/

theorem test_wf_refuses_sys_of_cls : ¬ (Instr.sys 0x0E0#12).WellFormed := by decide
theorem test_wf_refuses_sys_of_ret : ¬ (Instr.sys 0x0EE#12).WellFormed := by decide
theorem test_wf_refuses_unknown_of_jp : ¬ (Instr.unknown 0x1ABC#16).WellFormed := by decide
theorem test_wf_refuses_unknown_of_se : ¬ (Instr.unknown 0x5120#16).WellFormed := by decide
theorem test_wf_refuses_unknown_of_add : ¬ (Instr.unknown 0x8124#16).WellFormed := by decide
theorem test_wf_refuses_unknown_of_sne : ¬ (Instr.unknown 0x9120#16).WellFormed := by decide
theorem test_wf_refuses_unknown_of_skp : ¬ (Instr.unknown 0xE19E#16).WellFormed := by decide
theorem test_wf_refuses_unknown_of_bcd : ¬ (Instr.unknown 0xF133#16).WellFormed := by decide
theorem test_wf_accepts : (Instr.sys 0x0E1#12).WellFormed ∧ (Instr.unknown 0x5121#16).WellFormed := by decide

/-! ## Decoding: a word of every constructor, written out from R65 -/

theorem test_decode_group0 : decodeWord 0x00E0#16 = .cls ∧ decodeWord 0x00EE#16 = .ret ∧
    decodeWord 0x00E1#16 = .sys 0x0E1#12 ∧ decodeWord 0x0FFF#16 = .sys 0xFFF#12 := by decide
theorem test_decode_jumps : decodeWord 0x1ABC#16 = .jp 0xABC#12 ∧ decodeWord 0x2ABC#16 = .call 0xABC#12 ∧
    decodeWord 0xB300#16 = .jpV0 0x300#12 := by decide
theorem test_decode_skips : decodeWord 0x3A42#16 = .seImm 10 0x42#8 ∧ decodeWord 0x4A42#16 = .sneImm 10 0x42#8 ∧
    decodeWord 0x5120#16 = .seReg 1 2 ∧ decodeWord 0x9120#16 = .sneReg 1 2 ∧ decodeWord 0xE19E#16 = .skp 1 ∧
    decodeWord 0xE2A1#16 = .sknp 2 := by decide
theorem test_decode_immediates : decodeWord 0x6CAB#16 = .ldImm 12 0xAB#8 ∧ decodeWord 0x7105#16 = .addImm 1 0x05#8 := by
  decide
theorem test_decode_group8 : decodeWord 0x8120#16 = .ldReg 1 2 ∧ decodeWord 0x8121#16 = .orReg 1 2 ∧
    decodeWord 0x8122#16 = .andReg 1 2 ∧ decodeWord 0x8123#16 = .xorReg 1 2 ∧ decodeWord 0x8AB4#16 = .addReg 10 11 ∧
    decodeWord 0x8125#16 = .subReg 1 2 ∧ decodeWord 0x8126#16 = .shr 1 2 ∧ decodeWord 0x8127#16 = .subnReg 1 2 ∧
    decodeWord 0x8ABE#16 = .shl 10 11 := by decide
theorem test_decode_index : decodeWord 0xAFFF#16 = .ldI 0xFFF#12 ∧ decodeWord 0xF01E#16 = .addIVx 0 ∧
    decodeWord 0xF029#16 = .ldFVx 0 ∧ decodeWord 0xF133#16 = .ldBVx 1 ∧ decodeWord 0xF255#16 = .ldMemVx 2 ∧
    decodeWord 0xF265#16 = .ldVxMem 2 := by decide
theorem test_decode_rest : decodeWord 0xC10F#16 = .rnd 1 0x0F#8 ∧ decodeWord 0xD12A#16 = .drw 1 2 0xA#4 ∧
    decodeWord 0xF307#16 = .ldVxDT 3 ∧ decodeWord 0xF30A#16 = .ldVxK 3 ∧ decodeWord 0xF315#16 = .ldDTVx 3 ∧
    decodeWord 0xF318#16 = .ldSTVx 3 := by decide
theorem test_decode_unknown : decodeWord 0x5AB1#16 = .unknown 0x5AB1#16 ∧ decodeWord 0x8AB8#16 = .unknown 0x8AB8#16 ∧
    decodeWord 0x9AB5#16 = .unknown 0x9AB5#16 ∧ decodeWord 0xE19F#16 = .unknown 0xE19F#16 ∧
    decodeWord 0xF01F#16 = .unknown 0xF01F#16 := by decide
theorem test_decode_short : decode [0x12#8] = .error .tooShort ∧ decode [] = .error .tooShort := by decide
theorem test_decode_rest_bytes : decode [0x12#8, 0x34#8, 0x56#8] = .ok (.jp 0x234#12, [0x56#8]) := by decide

/-! ## One step of each instruction -/

/-- The state a step reaches, none where it stops. -/
def run1 (s : State) : Option State :=
  match step s with
  | .next t => some t
  | _ => none

/-- The reset state with `V1` and `V2` preset. -/
def two (a b : Byte) : State := (State.reset.setReg 1 a).setReg 2 b

/-- `s` with a `cycle` of these inputs next. -/
def withInputs (s : State) (keys : Keys) (rnd : Byte) : State := { s with calls := [.cycle { keys := keys, rnd := rnd }] }

/-- What a fatal error records, after one step. -/
def faultAfter (s : State) : Option (Run × Option FaultRecord) := (run1 s).map fun t => (t.run, t.fault)

/-- The framebuffer with exactly these cells lit. -/
def lit (cells : List Nat) : Framebuffer := cells.foldl (fun fb k => fbSet fb k true) 0

/-- G10. -/
theorem test_cls : (run1 ({ State.reset.setReg VF 1 with fb := lit [0, 5, 2047] }.placeWord 0x00E0#16)).map
    (fun t => (t.fb, t.reg VF, t.displayUpdated)) = some (0, 1, true) := by decide +kernel
/-- K3. -/
theorem test_ret : (run1 ({ State.reset with stack := [0x300, 0xABC] }.placeWord 0x00EE#16)).map
    (fun t => (t.pc, t.stack)) = some (0xABC, [0x300]) := by decide +kernel
/-- K9. -/
theorem test_ret_underflow : faultAfter (State.reset.placeWord 0x00EE#16) =
    some (.halted, some ⟨.stackUnderflow, 0x200, some 0x00EE#16⟩) := by decide +kernel
/-- K1. -/
theorem test_sys : (run1 (State.reset.placeWord 0x0123#16)).map (fun t => (t.pc, t.run)) = some (0x202, .running) := by
  decide +kernel
/-- S2. -/
theorem test_jp : (run1 (State.reset.placeWord 0x1FFF#16)).map (fun t => t.pc) = some 0xFFF := by decide +kernel
/-- K6. -/
theorem test_call : (run1 ({ State.reset with stack := [0x202], pc := 0x300 }.placeWord 0x2ABC#16)).map
    (fun t => (t.pc, t.stack)) = some (0xABC, [0x202, 0x302]) := by decide +kernel
/-- K10. -/
theorem test_call_overflow : faultAfter ({ State.reset with stack := List.replicate 16 0x202 }.placeWord 0x2ABC#16) =
    some (.halted, some ⟨.stackOverflow, 0x200, some 0x2ABC#16⟩) := by decide +kernel
/-- K8. -/
theorem test_jpV0 : (run1 ((State.reset.setReg 0 0xFF).placeWord 0xBFFF#16)).map (fun t => (t.pc, t.run)) =
    some (0x10FE, .running) := by decide +kernel
/-- C1, C2. -/
theorem test_seImm : (run1 ((State.reset.setReg 10 0x42).placeWord 0x3A42#16)).map (fun t => t.pc) = some 0x204 ∧
    (run1 ((State.reset.setReg 10 0x43).placeWord 0x3A42#16)).map (fun t => t.pc) = some 0x202 := by decide +kernel
/-- C3, C4. -/
theorem test_sneImm : (run1 ((State.reset.setReg 10 0x42).placeWord 0x4A42#16)).map (fun t => t.pc) = some 0x202 ∧
    (run1 ((State.reset.setReg 10 0x43).placeWord 0x4A42#16)).map (fun t => t.pc) = some 0x204 := by decide +kernel
/-- C5, C6. -/
theorem test_seReg : (run1 ((two 7 7).placeWord 0x5120#16)).map (fun t => t.pc) = some 0x204 ∧
    (run1 ((two 7 8).placeWord 0x5120#16)).map (fun t => t.pc) = some 0x202 := by decide +kernel
/-- C8, C9. -/
theorem test_sneReg : (run1 ((two 7 7).placeWord 0x9120#16)).map (fun t => t.pc) = some 0x202 ∧
    (run1 ((two 7 8).placeWord 0x9120#16)).map (fun t => t.pc) = some 0x204 := by decide +kernel
/-- C14, C11. -/
theorem test_skp :
    (run1 (withInputs ((State.reset.setReg 0 0x15).placeWord 0xE09E#16) 0x0020 0)).map (fun t => t.pc) = some 0x204 ∧
    (run1 (withInputs ((State.reset.setReg 0 5).placeWord 0xE09E#16) 0xFFDF 0)).map (fun t => t.pc) = some 0x202 := by
  decide +kernel
/-- C12, C13. -/
theorem test_sknp :
    (run1 (withInputs ((State.reset.setReg 0 5).placeWord 0xE0A1#16) 0x0020 0)).map (fun t => t.pc) = some 0x202 ∧
    (run1 (withInputs ((State.reset.setReg 0 5).placeWord 0xE0A1#16) 0x0000 0)).map (fun t => t.pc) = some 0x204 := by
  decide +kernel
/-- L2. -/
theorem test_ldImm : (run1 (State.reset.placeWord 0x6F07#16)).map (fun t => t.reg VF) = some 0x07 := by decide +kernel
/-- L4. -/
theorem test_addImm_wraps : (run1 (((two 2 0).setReg VF 0x55).placeWord 0x71FF#16)).map
    (fun t => (t.reg 1, t.reg VF)) = some (0x01, 0x55) := by decide +kernel
/-- A1. -/
theorem test_ldReg : (run1 ((two 0x01 0x9C).placeWord 0x8120#16)).map (fun t => (t.reg 1, t.reg 2)) =
    some (0x9C, 0x9C) := by decide +kernel
/-- A3. -/
theorem test_orReg : (run1 (((two 0x5A 0x33).setReg VF 7).placeWord 0x8121#16)).map (fun t => (t.reg 1, t.reg VF)) =
    some (0x7B, 7) := by decide +kernel
/-- A4. -/
theorem test_andReg : (run1 (((two 0x5A 0x33).setReg VF 7).placeWord 0x8122#16)).map (fun t => (t.reg 1, t.reg VF)) =
    some (0x12, 7) := by decide +kernel
/-- A5. -/
theorem test_xorReg : (run1 (((two 0x5A 0x33).setReg VF 7).placeWord 0x8123#16)).map (fun t => (t.reg 1, t.reg VF)) =
    some (0x69, 7) := by decide +kernel
/-- A7. -/
theorem test_addReg_carry : (run1 ((two 0xFF 0xFF).placeWord 0x8124#16)).map (fun t => (t.reg 1, t.reg VF)) =
    some (0xFE, 1) := by decide +kernel
/-- A12. -/
theorem test_addReg_into_VF : (run1 (((two 0x02 0).setReg VF 0xFF).placeWord 0x8F14#16)).map (fun t => t.reg VF) =
    some 0x01 := by decide +kernel
/-- A14. -/
theorem test_subReg_borrow : (run1 ((two 0x01 0x0D).placeWord 0x8125#16)).map (fun t => (t.reg 1, t.reg VF)) =
    some (0xF4, 0) := by decide +kernel
/-- A16. -/
theorem test_subReg_equal : (run1 ((two 0x33 0x33).placeWord 0x8125#16)).map (fun t => (t.reg 1, t.reg VF)) =
    some (0x00, 1) := by decide +kernel
/-- A22. -/
theorem test_shr : (run1 (((two 0x04 0xFF).setReg VF 1).placeWord 0x8126#16)).map
    (fun t => (t.reg 1, t.reg 2, t.reg VF)) = some (0x02, 0xFF, 0) := by decide +kernel
/-- A24. -/
theorem test_shr_VF : (run1 ((State.reset.setReg VF 0xFF).placeWord 0x8F06#16)).map (fun t => t.reg VF) = some 0x00 := by
  decide +kernel
/-- A26. -/
theorem test_subnReg : (run1 ((two 0x0D 0x01).placeWord 0x8127#16)).map (fun t => (t.reg 1, t.reg VF)) =
    some (0xF4, 0) := by decide +kernel
/-- A28. -/
theorem test_subnReg_into_VF : (run1 (((two 0x05 0).setReg VF 0x03).placeWord 0x8F17#16)).map (fun t => t.reg VF) =
    some 0x02 := by decide +kernel
/-- A29. -/
theorem test_shl : (run1 ((two 0xC1 0).placeWord 0x810E#16)).map (fun t => (t.reg 1, t.reg VF)) = some (0x82, 1) := by
  decide +kernel
/-- A32. -/
theorem test_shl_VF : (run1 ((State.reset.setReg VF 0x80).placeWord 0x8F0E#16)).map (fun t => t.reg VF) = some 0x02 := by
  decide +kernel
/-- M1. -/
theorem test_ldI : (run1 (State.reset.placeWord 0xAFFF#16)).map (fun t => t.i) = some 0x0FFF := by decide +kernel
/-- M2. -/
theorem test_addIVx : (run1 ({ (two 0x10 0).setReg VF 9 with i := 0x0FF8 }.placeWord 0xF11E#16)).map
    (fun t => (t.i, t.reg VF)) = some (0x1008, 9) := by decide +kernel
/-- M3. -/
theorem test_addIVx_wraps : (run1 ({ two 0x02 0 with i := 0xFFFF }.placeWord 0xF11E#16)).map (fun t => t.i) =
    some 0x0001 := by decide +kernel
/-- M6. -/
theorem test_ldFVx : (run1 ((State.reset.setReg 0 0xFF).placeWord 0xF029#16)).map (fun t => t.i) = some 0x04FB := by
  decide +kernel
/-- M11. -/
theorem test_ldBVx_top : (run1 ({ two 255 0 with i := 0xFFD }.placeWord 0xF133#16)).map
    (fun t => (t.mem.read 0xFFD, t.mem.read 0xFFE, t.mem.read 0xFFF, t.i)) = some (2, 5, 5, 0xFFD) := by decide +kernel
/-- M12. -/
theorem test_ldBVx_faults : faultAfter ({ two 255 0 with i := 0xFFE }.placeWord 0xF133#16) =
    some (.halted, some ⟨.addressOutOfRange, 0x200, some 0xF133#16⟩) := by decide +kernel
/-- M13. -/
theorem test_ldMemVx :
    (run1 ({ (two 0x22 0x33).setReg 0 0x11 with i := 0x400, mem := [(0x403, 0xEE)] }.placeWord 0xF255#16)).map
      (fun t => (t.mem.read 0x400, t.mem.read 0x401, t.mem.read 0x402, t.mem.read 0x403, t.i)) =
    some (0x11, 0x22, 0x33, 0xEE, 0x400) := by decide +kernel
/-- M15. -/
theorem test_ldMemVx_faults : faultAfter ({ State.reset with i := 0xFFF }.placeWord 0xF155#16) =
    some (.halted, some ⟨.addressOutOfRange, 0x200, some 0xF155#16⟩) := by decide +kernel
/-- M18. -/
theorem test_ldVxMem :
    (run1 ({ State.reset.setReg 3 0x99 with
      i := 0x400, mem := [(0x400, 0xA1), (0x401, 0xB2), (0x402, 0xC3), (0x403, 0xD4)] }.placeWord 0xF265#16)).map
      (fun t => (t.reg 0, t.reg 1, t.reg 2, t.reg 3, t.i)) = some (0xA1, 0xB2, 0xC3, 0x99, 0x400) := by decide +kernel
/-- M20. -/
theorem test_ldVxMem_faults : faultAfter ({ State.reset with i := 0xFFF }.placeWord 0xF165#16) =
    some (.halted, some ⟨.addressOutOfRange, 0x200, some 0xF165#16⟩) := by decide +kernel
/-- G4. -/
theorem test_drw_wraps :
    (run1 ({ (State.reset.setReg 0 60).setReg 1 5 with i := 0x300, mem := [(0x300, 0xFF)] }.placeWord 0xD011#16)).map
      (fun t => (t.fb == lit [380, 381, 382, 383, 320, 321, 322, 323], t.reg VF, t.displayUpdated)) =
    some (true, 0, true) := by decide +kernel
/-- G6. -/
theorem test_drw_faults : faultAfter ({ State.reset with i := 0xFFF, mem := [(0xFFF, 0x01)] }.placeWord 0xD012#16) =
    some (.halted, some ⟨.addressOutOfRange, 0x200, some 0xD012#16⟩) := by decide +kernel
/-- T1. -/
theorem test_ldVxDT : (run1 ({ State.reset with dt := 0x2A }.placeWord 0xF307#16)).map (fun t => (t.reg 3, t.dt)) =
    some (0x2A, 0x2A) := by decide +kernel
/-- T2. -/
theorem test_ldDTVx : (run1 ((State.reset.setReg 3 0xFF).placeWord 0xF315#16)).map (fun t => t.dt) = some 0xFF := by
  decide +kernel
/-- T3. -/
theorem test_ldSTVx : (run1 ((State.reset.setReg 3 1).placeWord 0xF318#16)).map (fun t => (t.st, t.soundActive)) =
    some (1, true) := by decide +kernel
/-- W1. -/
theorem test_rnd : (run1 (withInputs (State.reset.placeWord 0xC10F#16) 0 0xA7)).map (fun t => t.reg 1) = some 0x07 := by
  decide +kernel
/-- W4. -/
theorem test_ldVxK : (run1 (withInputs ((State.reset.setReg 3 0x77).placeWord 0xF30A#16) 0xFFFF 0)).map
    (fun t => (t.run, t.reg 3, t.pc)) = some (.awaitingKey 3, 0x77, 0x202) := by decide +kernel
/-- The unknown words of 48_unknown.md. -/
theorem test_unknown : (run1 ((two 3 0).placeWord 0x8AB8#16)).map (fun t => (t.pc, t.run, t.reg 1)) =
    some (0x202, .running, 3) := by decide +kernel

/-! ## The host's calls -/

/-- W8. -/
theorem test_capture : (run1 (withInputs { State.reset with run := .awaitingKey 3 } 0x0280 0)).map
    (fun t => (t.run, t.reg 3, t.pc)) = some (.running, 7, 0x200) := by decide +kernel
/-- T5, S9: one tick. -/
theorem test_tick : (run1 { State.reset with dt := 0, st := 5, calls := [.tick] }).map (fun t => (t.dt, t.st)) =
    some (0, 4) := by decide +kernel
/-- S1. -/
theorem test_load : (run1 { State.reset with calls := [.resetLoad [0x12, 0x34, 0x56, 0x78]] }).map
    (fun t => (t.mem.read 0x200, t.mem.read 0x203, t.mem.read 0x204, t.mem.read 0x050, t.pc)) =
    some (0x12, 0x78, 0, 0, 0x200) := by decide +kernel
/-- F4: 0xFFC is executed. -/
theorem test_fetch_last : (run1 ({ State.reset with pc := 0xFFC }.placeWord 0x1FFC#16)).map (fun t => (t.pc, t.run)) =
    some (0xFFC, .running) := by decide +kernel
/-- F1. -/
theorem test_fetch_faults : faultAfter (withInputs { State.reset with pc := 0xFFF } 0 0) =
    some (.halted, some ⟨.addressOutOfRange, 0xFFF, none⟩) := by decide +kernel
/-- F6: high byte first. -/
theorem test_fetch_big_endian : { State.reset with mem := [(0x200, 0xAB), (0x201, 0xCD)] }.opcodeAtPC = 0xABCD#16 := by
  decide +kernel
/-- The host's question: a row's word decodes and runs as the first instruction after reset. -/
theorem test_withFetchWord : decodeTableWord 16 0x6CAB = some (.ldImm 12 0xAB#8) ∧
    (run1 (State.reset.withFetchWord 16 0x6CAB)).map (fun t => t.reg 12) = some 0xAB := by decide +kernel

/-! ## Witnesses: the hypotheses of each obligation are met together, at the boundaries of their clauses -/

/-- A step that reaches a state with `P`. -/
def stepTo (s : State) (p : State → Bool) : Bool :=
  match step s with
  | .next t => p t
  | _ => false

theorem step_to {s : State} (P : State → Prop) [DecidablePred P] (h : stepTo s (fun t => decide (P t)) = true) :
    ∃ t, step s = .next t ∧ P t := by
  unfold stepTo at h
  split at h
  · exact ⟨_, by assumption, of_decide_eq_true h⟩
  · cases h

/-- A meaning that reaches a state with `P`. -/
def execTo (i : Instr) (s : State) (p : State → Bool) : Bool :=
  match exec i s with
  | .next t => p t
  | _ => false

theorem exec_to {i : Instr} {s : State} (P : State → Prop) [DecidablePred P]
    (h : execTo i s (fun t => decide (P t)) = true) : ∃ t, exec i s = .next t ∧ P t := by
  unfold execTo at h
  split at h
  · exact ⟨_, by assumption, of_decide_eq_true h⟩
  · cases h

/-- The reset state with a stack meets the invariant. -/
theorem inv_stack {l : List Word} (hd : l.length ≤ 16) (hs : ∀ a ∈ l, a.toNat < 4096) :
    { State.reset with stack := l }.Inv where
  mem := Memory.wf_nil
  depth := fun _ => hd
  fault := by simp [State.reset]
  display := fun e => nomatch e
  pc := fun _ => by simp [State.reset]
  ret := fun _ => hs

/-- The reset state with a word at `PC`. -/
abbrev wordAtReset (op : Word) : State := State.reset.placeWord op

/-- Depth 16 with a `CALL 0xABC` at `PC`. -/
abbrev fullCall : State := { State.reset with stack := List.replicate 16 0x202 }.placeWord 0x2ABC#16

/-- A failed machine. -/
abbrev failedState : State :=
  { State.reset with run := .halted, fault := some ⟨.stackUnderflow, 0x200, some 0x00EE#16⟩ }

theorem witness_DecodeOfEncode : (Instr.sys 0x0E1#12).WellFormed ∧ (Instr.drw 15 0 15#4).WellFormed ∧
    (Instr.unknown 0xFFFF#16).WellFormed := by decide

theorem witness_MemWriteChangesOneByte : Memory.wf [(0x300, 5), (4095, 1)] ∧ 4096 ≤ 4096 ∧ 4095 < 4096 ∧ 0 ≠ 4095 := by
  decide

theorem witness_EqualReadsEqualMemories : ∃ m m' : Memory, m.wf ∧ m'.wf ∧ m ≠ [] ∧
    ∀ a, a < 4096 → m.read a = m'.read a :=
  ⟨[(4095, 1)], [(4095, 1)], by decide, by decide, by decide, fun _ _ => rfl⟩

theorem witness_ResetLoadGivesTable :
    (∃ (s : State) (rom : List Byte) (rest : List HostCall), s.nextCall = (.resetLoad rom, rest) ∧ rom.length = 3584 ∧
      3583 < rom.length) ∧
    (∃ (s : State) (rom : List Byte) (rest : List HostCall), s.nextCall = (.resetLoad rom, rest) ∧ rom.length ≤ 3584 ∧
      0 < rom.length ∧ 0x200 + rom.length ≤ 4095) :=
  ⟨⟨{ State.reset with calls := [.resetLoad (List.replicate 3584 7)] }, _, [], rfl, List.length_replicate,
    by rw [List.length_replicate]; decide⟩,
   ⟨{ State.reset with calls := [.resetLoad [1, 2], .tick] }, _, _, rfl, by decide, by decide, by decide⟩⟩

theorem witness_OversizedRomRefused :
    (∃ (s : State) (rom : List Byte) (rest : List HostCall), s.nextCall = (.resetLoad rom, rest) ∧ 4096 < 0x200 + rom.length) ∧
    (∃ (s : State) (rom : List Byte) (rest : List HostCall), s.nextCall = (.resetLoad rom, rest) ∧ 0x200 + rom.length = 4096) :=
  ⟨⟨{ State.reset with calls := [.resetLoad (List.replicate 3585 7)] }, _, [], rfl, by rw [List.length_replicate]; decide⟩,
   ⟨{ State.reset with calls := [.resetLoad (List.replicate 3584 7)] }, _, [], rfl, by rw [List.length_replicate]⟩⟩

theorem witness_EveryStepKeepsInvariant : ∃ s t : State, s.Inv ∧ step s = .next t ∧ s.stack.length = 15 ∧ t.pc = 0xABC := by
  obtain ⟨t, h, hp⟩ := step_to (s := { State.reset with stack := List.replicate 15 0x202 }.placeWord 0x2ABC#16)
    (fun t => t.pc = 0xABC) (by decide +kernel)
  exact ⟨_, t, State.placeWord_inv _ (inv_stack (by simp) (by simp)) (fun e => nomatch e), h, by decide +kernel, hp⟩

theorem witness_StepRunsDecodedInstruction : ∃ (s : State) (i : Instr) (a : CycleInput) (rest : List HostCall),
    s.fetchable ∧ s.pc.toNat = 4093 ∧ s.nextCall = (.cycle a, rest) ∧
    decode [s.mem.read s.pc.toNat, s.mem.read (s.pc.toNat + 1)] = .ok (i, []) :=
  ⟨{ State.reset with pc := 4093 }.placeWord 0x6CAB#16, .ldImm 12 0xAB#8, _, [], ⟨rfl, by decide +kernel⟩, by decide +kernel,
    rfl, by decide +kernel⟩

theorem witness_FetchFaultHalts : ∃ s : State, s.nextIsCycle ∧ s.run = .running ∧ s.pc.toNat = 4094 ∧ 4094 ≤ s.pc.toNat :=
  ⟨withInputs { State.reset with pc := 4094 } 0 0, ⟨_, _, rfl⟩, rfl, by decide, by decide⟩

/-- Each fatal error at the boundary of its condition, and the last access that raises none. -/
theorem witness_FatalErrorsExactly :
    (fullCall.fetchable ∧ fullCall.nextIsCycle ∧ fatalKind fullCall.instrAtPC fullCall = some .stackOverflow) ∧
    ((wordAtReset 0x6CAB#16).fetchable ∧ (wordAtReset 0x6CAB#16).nextIsCycle ∧
      fatalKind (wordAtReset 0x6CAB#16).instrAtPC (wordAtReset 0x6CAB#16) = none) ∧
    fatalKind .ret State.reset = some .stackUnderflow ∧
    fatalKind (.drw 0 0 2) { State.reset with i := 4095 } = some .addressOutOfRange ∧
    fatalKind (.drw 0 0 1) { State.reset with i := 4095 } = none ∧
    fatalKind (.ldBVx 0) { State.reset with i := 4094 } = some .addressOutOfRange ∧
    fatalKind (.ldBVx 0) { State.reset with i := 4093 } = none ∧
    fatalKind (.ldMemVx 1) { State.reset with i := 4095 } = some .addressOutOfRange ∧
    fatalKind (.ldVxMem 0) { State.reset with i := 4095 } = none :=
  ⟨⟨⟨rfl, by decide +kernel⟩, ⟨_, _, rfl⟩, by decide +kernel⟩, ⟨⟨rfl, by decide +kernel⟩, ⟨_, _, rfl⟩, by decide +kernel⟩,
    by decide +kernel, by decide +kernel, by decide +kernel,
    by decide +kernel, by decide +kernel, by decide +kernel, by decide +kernel⟩

theorem witness_StackOverflowOnlyByCall : ∃ t, fullCall.Inv ∧ fullCall.run = .running ∧ fullCall.nextIsCycle ∧
    fullCall.fetchable ∧ fullCall.stack.length = 16 ∧ fullCall.instrAtPC = .call 0xABC#12 ∧
    step fullCall = .next t ∧ t.run = .halted := by
  obtain ⟨t, h, hp⟩ := step_to (s := fullCall) (fun t => t.run = .halted) (by decide +kernel)
  exact ⟨t, State.placeWord_inv _ (inv_stack (by simp) (by simp)) (fun e => nomatch e), rfl, ⟨_, _, rfl⟩, ⟨rfl, by decide +kernel⟩, by decide +kernel,
    by decide +kernel, h, hp⟩

theorem witness_StackUnderflowOnlyByRet : ∃ t, (wordAtReset 0x00EE#16).Inv ∧ (wordAtReset 0x00EE#16).run = .running ∧
    (wordAtReset 0x00EE#16).nextIsCycle ∧ (wordAtReset 0x00EE#16).fetchable ∧ (wordAtReset 0x00EE#16).stack = [] ∧
    (wordAtReset 0x00EE#16).instrAtPC = .ret ∧ step (wordAtReset 0x00EE#16) = .next t ∧ t.run = .halted := by
  obtain ⟨t, h, hp⟩ := step_to (s := wordAtReset 0x00EE#16) (fun t => t.run = .halted) (by decide +kernel)
  exact ⟨t, State.placeWord_inv _ (inv_stack (by simp) (by simp)) (fun e => nomatch e), rfl, ⟨_, _, rfl⟩, ⟨rfl, by decide +kernel⟩, rfl, by decide +kernel, h, hp⟩

theorem witness_HaltedIsInert : failedState.run = .halted ∧ (withInputs failedState 0 0).nextCall = (.cycle ⟨0, 0⟩, []) ∧
    { failedState with calls := [.tick] }.nextCall = (.tick, []) := ⟨rfl, rfl, rfl⟩

theorem witness_KeyCaptureTakesLowestKey :
    (∃ s : State, s.run = .awaitingKey 15 ∧ s.nextCall = (.cycle ⟨0x8000, 0⟩, []) ∧ (0x8000 : Keys).getLsbD 15 = true ∧
      ∀ j, j < 15 → (0x8000 : Keys).getLsbD j = false) ∧
    (∃ s : State, s.run = .awaitingKey 0 ∧ s.nextCall = (.cycle ⟨0, 0⟩, []) ∧ ∀ k, k < 16 → (0 : Keys).getLsbD k = false) :=
  ⟨⟨withInputs { State.reset with run := .awaitingKey 15 } 0x8000 0, rfl, rfl, by decide, by decide⟩,
   ⟨withInputs { State.reset with run := .awaitingKey 0 } 0 0, rfl, rfl, by decide⟩⟩

theorem witness_AwaitingOnlyByKeyWait :
    (∃ t, step (wordAtReset 0xF30A#16) = .next t ∧ t.run = .awaitingKey 3) ∧
    (∃ t, step (withInputs { State.reset with run := .awaitingKey 3 } 0 0) = .next t ∧ t.run = .awaitingKey 3) :=
  ⟨step_to (fun t => t.run = .awaitingKey 3) (by decide +kernel), step_to (fun t => t.run = .awaitingKey 3) (by decide +kernel)⟩

theorem witness_TickDecrementsTimers : ∃ s s' : State, s.nextCall = (.tick, []) ∧ s.run ≠ .halted ∧ s.dt = 0 ∧ s.st = 255 ∧
    s'.nextCall = (.tick, []) ∧ s'.run = .halted :=
  ⟨{ State.reset with st := 255, calls := [.tick] }, { failedState with calls := [.tick] }, rfl, by decide, rfl, rfl, rfl, rfl⟩

theorem witness_CyclesKeepTimers : ∃ t, (wordAtReset 0xF315#16).nextIsCycle ∧ step (wordAtReset 0xF315#16) = .next t ∧
    t.run ≠ .halted := by
  obtain ⟨t, h, hp⟩ := step_to (s := wordAtReset 0xF315#16) (fun t => t.run ≠ .halted) (by decide +kernel)
  exact ⟨t, ⟨_, _, rfl⟩, h, hp⟩

/-- A next call that is a `cycle` is no `reset_load`. -/
theorem no_reset_next {s : State} (h : s.nextIsCycle) : ¬ s.nextIsReset := by
  obtain ⟨a, rest, hc⟩ := h
  rintro ⟨rom, rest', hr⟩
  rw [hc] at hr
  cases hr

theorem witness_FramebufferOnlyByDisplay : ∃ s t : State, ¬ s.nextIsReset ∧ step s = .next t ∧ t.run ≠ .halted ∧ t.fb ≠ s.fb := by
  obtain ⟨t, h, hp⟩ := step_to (s := wordAtReset 0xD015#16) (fun t => t.run ≠ .halted ∧ t.fb ≠ (wordAtReset 0xD015#16).fb)
    (by decide +kernel)
  exact ⟨_, t, no_reset_next ⟨_, _, rfl⟩, h, hp⟩

theorem witness_MemoryOnlyByStores : ∃ s t : State, ¬ s.nextIsReset ∧ step s = .next t ∧ t.run ≠ .halted ∧ t.mem ≠ s.mem := by
  obtain ⟨t, h, hp⟩ := step_to (s := wordAtReset 0xF033#16) (fun t => t.run ≠ .halted ∧ t.mem ≠ (wordAtReset 0xF033#16).mem)
    (by decide +kernel)
  exact ⟨_, t, no_reset_next ⟨_, _, rfl⟩, h, hp⟩

theorem witness_StackOnlyByCallRet : ∃ s t : State, ¬ s.nextIsReset ∧ step s = .next t ∧ t.run ≠ .halted ∧
    t.stack ≠ s.stack := by
  obtain ⟨t, h, hp⟩ := step_to (s := wordAtReset 0x2ABC#16)
    (fun t => t.run ≠ .halted ∧ t.stack ≠ (wordAtReset 0x2ABC#16).stack) (by decide +kernel)
  exact ⟨_, t, no_reset_next ⟨_, _, rfl⟩, h, hp⟩

theorem witness_IndexOnlyByItsWriters : ∃ s t : State, ¬ s.nextIsReset ∧ step s = .next t ∧ t.run ≠ .halted ∧ t.i ≠ s.i := by
  obtain ⟨t, h, hp⟩ := step_to (s := wordAtReset 0xA001#16) (fun t => t.run ≠ .halted ∧ t.i ≠ (wordAtReset 0xA001#16).i)
    (by decide +kernel)
  exact ⟨_, t, no_reset_next ⟨_, _, rfl⟩, h, hp⟩

theorem witness_FlagRegisterWriters : ∃ s t : State, ¬ s.nextIsReset ∧ step s = .next t ∧ t.run ≠ .halted ∧
    t.reg VF ≠ s.reg VF := by
  obtain ⟨t, h, hp⟩ := step_to (s := (two 0xFF 0xFF).placeWord 0x8124#16)
    (fun t => t.run ≠ .halted ∧ t.reg VF ≠ ((two 0xFF 0xFF).placeWord 0x8124#16).reg VF) (by decide +kernel)
  exact ⟨_, t, no_reset_next ⟨_, _, rfl⟩, h, hp⟩

theorem witness_ProgramCounterAdvance :
    (∃ t, (wordAtReset 0x6CAB#16).nextIsCycle ∧ (wordAtReset 0x6CAB#16).run = .running ∧
      (wordAtReset 0x6CAB#16).instrAtPC.writesPC = false ∧ step (wordAtReset 0x6CAB#16) = .next t ∧ t.run ≠ .halted) ∧
    (∃ s t : State, s.run = .awaitingKey 3 ∧ s.nextIsCycle ∧ step s = .next t ∧ t.run ≠ .halted) := by
  obtain ⟨t, h, hp⟩ := step_to (s := wordAtReset 0x6CAB#16) (fun t => t.run ≠ .halted) (by decide +kernel)
  obtain ⟨t', h', hp'⟩ := step_to (s := withInputs { State.reset with run := .awaitingKey 3 } 1 0)
    (fun t => t.run ≠ .halted) (by decide +kernel)
  exact ⟨⟨t, ⟨_, _, rfl⟩, rfl, by decide +kernel, h, hp⟩,
    ⟨withInputs { State.reset with run := .awaitingKey 3 } 1 0, t', rfl, ⟨_, _, rfl⟩, h', hp'⟩⟩

theorem witness_DisplayUpdatedExactly : ∃ t, (wordAtReset 0x00E0#16).nextIsCycle ∧ (wordAtReset 0x00E0#16).run ≠ .halted ∧
    step (wordAtReset 0x00E0#16) = .next t ∧ t.displayUpdated = true := by
  obtain ⟨t, h, hp⟩ := step_to (s := wordAtReset 0x00E0#16) (fun t => t.displayUpdated = true) (by decide +kernel)
  exact ⟨t, ⟨_, _, rfl⟩, by decide +kernel, h, hp⟩

theorem witness_SoundTimerUnobservable : ∃ t, step (wordAtReset 0x6CAB#16) = .next t ∧ t.run ≠ .halted :=
  step_to (fun t => t.run ≠ .halted) (by decide +kernel)

/-- K5. -/
theorem witness_IdleLoopStays : (wordAtReset 0x1200#16).idle ∧ (wordAtReset 0x1200#16).nextIsCycle :=
  ⟨⟨⟨rfl, by decide +kernel⟩, 0x200#12, by decide +kernel, by decide +kernel⟩, ⟨_, _, rfl⟩⟩

/-- A host that ticks and cycles in turn, for ever. -/
abbrev turns : List HostCall := [.tick, .cycle ⟨0, 0⟩]

/-- The delay loop of R198 at 0x200, polled through `V0`, with `DT` at 2 and a fair host. -/
def delayLoop : State :=
  { State.reset with
    mem := [(0x200, 0xF0), (0x201, 0x07), (0x202, 0x30), (0x204, 0x12)]
    dt := 2
    again := turns }

/-- Where the host of `delayLoop` is in its turns. -/
def inTurn (t : State) : Prop := t.again = turns ∧ (t.calls = [] ∨ t.calls = [.cycle ⟨0, 0⟩])

theorem delayLoop_inTurn : ∀ n t, delayLoop.after n = some t → inTurn t :=
  State.after_induction ⟨rfl, .inl rfl⟩ fun t u ⟨ha, hc⟩ hu => by
    obtain ⟨h1, h2, -⟩ := step_schedule hu
    refine ⟨h2.trans ha, ?_⟩
    rw [h1]
    rcases hc with hc | hc <;> simp [State.nextCall, hc, ha]

theorem inTurn_next {t : State} (h : inTurn t) :
    t.nextCall = (.tick, [.cycle ⟨0, 0⟩]) ∨ t.nextCall = (.cycle ⟨0, 0⟩, []) := by
  rcases h.2 with hc | hc <;> simp [State.nextCall, hc, h.1]

theorem delayLoop_neverReset : delayLoop.neverReset := by
  rintro n t ht ⟨rom, rest, hr⟩
  rcases inTurn_next (delayLoop_inTurn n t ht) with h | h <;> rw [h] at hr <;> cases hr

theorem delayLoop_fairHost : delayLoop.fairHost := by
  have turn : ∀ n, ∃ t u, delayLoop.after n = some t ∧ delayLoop.after (n + 1) = some u ∧
      ((t.nextIsTick ∧ u.nextIsCycle) ∨ (t.nextIsCycle ∧ u.nextIsTick)) := by
    intro n
    obtain ⟨t, ht⟩ := State.after_isSome delayLoop_neverReset n
    obtain ⟨u, hu⟩ := State.after_isSome delayLoop_neverReset (n + 1)
    obtain ⟨t', ht', hs⟩ := State.after_succ.1 hu
    obtain rfl : t' = t := Option.some.inj (ht'.symm.trans ht)
    obtain ⟨h1, h2, -⟩ := step_schedule hs
    have ha := (delayLoop_inTurn n t' ht).1
    refine ⟨t', u, ht, hu, ?_⟩
    rcases inTurn_next (delayLoop_inTurn n t' ht) with h | h
    · rw [h] at h1
      exact .inl ⟨⟨_, h⟩, ⟨⟨0, 0⟩, [], by simp only [State.nextCall, h1]⟩⟩
    · rw [h] at h1
      exact .inr ⟨⟨_, _, h⟩, ⟨[.cycle ⟨0, 0⟩], by simp only [State.nextCall, h1, h2, ha]⟩⟩
  constructor <;> intro n <;> obtain ⟨t, u, ht, hu, h⟩ := turn n <;> rcases h with ⟨h1, h2⟩ | ⟨h1, h2⟩
  · exact ⟨n, Nat.le_refl n, t, ht, h1⟩
  · exact ⟨n + 1, Nat.le_succ n, u, hu, h2⟩
  · exact ⟨n + 1, Nat.le_succ n, u, hu, h2⟩
  · exact ⟨n, Nat.le_refl n, t, ht, h1⟩

theorem delayLoop_waits : delayLoop.waits (.delay 0x200 0) :=
  ⟨rfl, ⟨by decide, by decide +kernel, by decide +kernel, 0x200#12, by decide +kernel, by decide⟩, by decide +kernel, .inl rfl⟩

theorem witness_DelayLoopEndsUnderFairHost : ∃ (s : State) (a : Nat) (x : Reg), s.waits (.delay a x) ∧ s.fairHost ∧ s.neverReset :=
  ⟨delayLoop, 0x200, 0, delayLoop_waits, delayLoop_fairHost, delayLoop_neverReset⟩

/-- A key wait with a `cycle` of these keys next. -/
abbrev keyWait (keys : Keys) : State := withInputs { State.reset with run := .awaitingKey 3 } keys 0

/-- The last turn of the delay loop's timer. -/
abbrev lastTick : State := { delayLoop with dt := 1 }

theorem lastTick_no_reset : ¬ lastTick.nextIsReset := by rintro ⟨rom, rest, hr⟩; cases hr
theorem keyWait_no_reset (keys : Keys) : ¬ (keyWait keys).nextIsReset := by rintro ⟨rom, rest, hr⟩; cases hr

theorem witness_WaitsLastUntilHostMove :
    (∃ t, lastTick.waits (.delay 0x200 0) ∧ lastTick.dt = 1 ∧ step lastTick = .next t ∧ ¬ lastTick.nextIsReset ∧
      (Wait.delay 0x200 0).liftedBy lastTick.nextCall.1) ∧
    (∃ t, (keyWait 0x8000).waits (.key 3) ∧ step (keyWait 0x8000) = .next t ∧ ¬ (keyWait 0x8000).nextIsReset ∧
      (Wait.key 3).liftedBy (keyWait 0x8000).nextCall.1) ∧
    (∃ t, (keyWait 0).waits (.key 3) ∧ step (keyWait 0) = .next t ∧ ¬ (keyWait 0).nextIsReset ∧
      ¬ (Wait.key 3).liftedBy (keyWait 0).nextCall.1) := by
  obtain ⟨t1, h1⟩ := step_is_next lastTick_no_reset
  obtain ⟨t2, h2⟩ := step_is_next (keyWait_no_reset 0x8000)
  obtain ⟨t3, h3⟩ := step_is_next (keyWait_no_reset 0)
  obtain ⟨w1, w2, -, w3⟩ := delayLoop_waits
  refine ⟨⟨t1, ⟨w1, w2, by decide, w3⟩, rfl, h1, lastTick_no_reset, rfl⟩,
    ⟨t2, rfl, h2, keyWait_no_reset _, ⟨_, rfl, by decide⟩⟩, ⟨t3, rfl, h3, keyWait_no_reset _, ?_⟩⟩
  rintro ⟨input, h, hk⟩
  cases h
  exact hk rfl

theorem witness_ReturnPopsStack : { State.reset with stack := [0x300, 0xABC] }.stack = [0x300] ++ [0xABC] := rfl

theorem witness_JumpSetsPC : 0xFFE ≤ (0xFFE#12).toNat ∧ 0xFFE ≤ (0xFFF#12).toNat := by decide

theorem witness_CallPushesAndJumps : { State.reset with stack := List.replicate 15 0x202 }.stack.length < 16 := by decide

theorem witness_CallThenReturnResumes : ∃ (s t w : State), s.stack.length < 16 ∧ exec (.call 0xABC#12) s = .next t ∧
    w.stack = t.stack := by
  obtain ⟨t, h, -⟩ := exec_to (i := .call 0xABC#12) (s := State.reset) (fun t => t.pc = 0xABC) (by decide +kernel)
  exact ⟨_, t, t, by decide, h, rfl⟩

theorem witness_SkipEqualImmediate : State.reset.reg 15 = 0 ∧ State.reset.reg 15 ≠ 1 := by decide

theorem witness_RegisterInstructionsFrame : ∃ t, (Instr.addReg 1 2).regDest = some 1 ∧ (Instr.addReg 1 2).setsFlag = true ∧
    (0 : Reg) ≠ 1 ∧ (0 : Reg) ≠ VF ∧ exec (.addReg 1 2) State.reset = .next t := by
  obtain ⟨t, h, -⟩ := exec_to (i := .addReg 1 2) (s := State.reset) (fun t => t.pc = 0x200) (by decide +kernel)
  exact ⟨t, rfl, rfl, by decide, by decide, h⟩

theorem witness_BcdStoreDigits : ∃ s : State, s.mem.wf ∧ s.i.toNat = 4093 ∧ s.i.toNat + 2 < 4096 :=
  ⟨{ State.reset with i := 4093 }, by decide, by decide, by decide⟩

theorem witness_BlockStoreWrites : ∃ s : State, s.mem.wf ∧ s.i.toNat + (15 : Reg).val = 4095 ∧ (15 : Reg) ≤ 15 :=
  ⟨{ State.reset with i := 4080 }, by decide, by decide, by decide⟩

theorem witness_BlockLoadReads : ∃ s : State, s.i.toNat + (0 : Reg).val = 4095 ∧ (0 : Reg) ≤ 0 ∧ (0 : Reg) < 1 :=
  ⟨{ State.reset with i := 4095 }, by decide, by decide, by decide⟩

theorem witness_BlockStoreThenLoad : ∃ s t w : State, s.mem.wf ∧ s.i.toNat + (14 : Reg).val = 4095 ∧
    exec (.ldMemVx 14) s = .next t ∧ w.mem = t.mem ∧ w.i = s.i ∧ (14 : Reg) < 15 := by
  obtain ⟨t, h, hp⟩ := exec_to (i := .ldMemVx 14) (s := { State.reset with i := 4081 }) (fun t => t.i = 4081) (by decide +kernel)
  exact ⟨_, t, t, by decide, by decide, h, rfl, hp, by decide⟩

/-- M21. -/
theorem witness_StoredCodeIsFetched : ∃ (s t w : State) (x k k' : Reg), s.mem.wf ∧ s.i.toNat + x.val < 4096 ∧
    exec (.ldMemVx x) s = .next t ∧ k'.val = k.val + 1 ∧ k' ≤ x ∧ w.mem = t.mem ∧ w.pc.toNat = s.i.toNat + k.val ∧
    w.pc.toNat ≤ 4093 := by
  obtain ⟨t, h, -⟩ := exec_to (i := .ldMemVx 1) (s := { State.reset with i := 4093 }) (fun t => t.i = 4093) (by decide +kernel)
  exact ⟨_, t, { t with pc := 4093 }, 1, 0, 1, by decide, by decide, h, rfl, by decide, rfl, rfl, Nat.le_refl 4093⟩

theorem witness_DrawSpriteXors : (∃ s : State, s.i.toNat + (15#4).toNat - 1 = 4095) ∧ (0#4).toNat = 0 ∧ 14 < (15#4).toNat ∧
    7 < 8 :=
  ⟨⟨{ State.reset with i := 4081 }, by decide⟩, by decide, by decide, by decide⟩

/-- S7. -/
theorem witness_DrawTwiceRestores : ∃ (s t : State), s.i.toNat + (5#4).toNat - 1 < 4096 ∧ exec (.drw 1 2 5#4) s = .next t ∧
    t.reg 1 = s.reg 1 ∧ t.reg 2 = s.reg 2 ∧ t.fb ≠ s.fb := by
  obtain ⟨t, h, h1, h2, h3⟩ := exec_to (i := .drw 1 2 5#4) (s := State.reset)
    (fun t => t.reg 1 = State.reset.reg 1 ∧ t.reg 2 = State.reset.reg 2 ∧ t.fb ≠ State.reset.fb) (by decide +kernel)
  exact ⟨_, t, by decide, h, h1, h2, h3⟩

end Sys2Proof.Tests
end

section
/-! The register write's law as a whole, assembled from the register file's laws of Sys2Proof/Laws/State.lean. -/

namespace Sys2Proof.Machine

/-- Settles O8: the read after the write at the same register, the read at another one (R10), and the frame, in which only the register
file differs (R6). -/
theorem registerWriteChangesOneRegister : Obligations.RegisterWriteChangesOneRegister := by
  intro s x b
  exact ⟨s.reg_setReg_same x b, fun _ hne => s.reg_setReg_ne b hne, s.setReg_with_v x b⟩

end Sys2Proof.Machine
end

section
/-! The invariant of the machine, kept by every step: first each clause of `fatalKind` as a bound, then where a meaning can leave the stack,
`PC` and memory, then the invariant along each of the host's calls. -/

namespace Sys2Proof.Machine

/-! ## The absence of a fatal error as a bound (R161, R163) -/

/-- `CALL` raises no fatal error exactly below depth 16 (R161). -/
theorem fatalKind_call_eq_none {nnn : BitVec 12} {s : State} :
    fatalKind (.call nnn) s = none ↔ s.stack.length < 16 := by
  simp [fatalKind]

/-- `DRW` raises no fatal error exactly when its rows lie inside memory (R163). -/
theorem fatalKind_drw_eq_none {x y : Reg} {n : BitVec 4} {s : State} :
    fatalKind (.drw x y n) s = none ↔ n.toNat = 0 ∨ s.i.toNat + n.toNat ≤ 4096 := by
  simp only [fatalKind, ite_eq_right_iff, reduceCtorEq, imp_false]
  omega

/-- `LD B, Vx` raises no fatal error exactly when its three bytes lie inside memory (R163). -/
theorem fatalKind_ldBVx_eq_none {x : Reg} {s : State} :
    fatalKind (.ldBVx x) s = none ↔ s.i.toNat + 2 < 4096 := by
  simp only [fatalKind, ite_eq_right_iff, reduceCtorEq, imp_false, Nat.not_le]

/-- `LD [I], Vx` raises no fatal error exactly when its block lies inside memory (R163). -/
theorem fatalKind_ldMemVx_eq_none {x : Reg} {s : State} :
    fatalKind (.ldMemVx x) s = none ↔ s.i.toNat + x.val < 4096 := by
  simp [fatalKind]

/-- `LD Vx, [I]` raises no fatal error exactly when its block lies inside memory (R163). -/
theorem fatalKind_ldVxMem_eq_none {x : Reg} {s : State} :
    fatalKind (.ldVxMem x) s = none ↔ s.i.toNat + x.val < 4096 := by
  simp [fatalKind]

/-! ## What an instruction does to `RUN`, to the stack, to `PC`, to memory -/

/-- Short of a fatal error no meaning halts the machine (R167). -/
theorem exec_run_ne_halted {i : Instr} {s t : State} (hs : s.run ≠ .halted) (hf : fatalKind i s = none)
    (h : exec i s = .next t) : t.run ≠ .halted := by
  obtain ⟨-, hrun | ⟨x, -, hrun⟩, -⟩ := exec_frame hf h
  · rwa [hrun]
  · simp [hrun]

/-- Short of a fatal error a meaning leaves the stack, pops its top (`RET`) or pushes the advanced `PC` below depth 16 (`CALL`). -/
theorem exec_stack_cases {i : Instr} {s t : State} (hf : fatalKind i s = none) (h : exec i s = .next t) :
    t.stack = s.stack ∨ t.stack = s.stack.dropLast ∨ (s.stack.length < 16 ∧ t.stack = s.stack ++ [s.pc]) := by
  obtain ⟨-, -, -, -, -, hstack, -⟩ := exec_frame hf h
  rcases hstack with hsame | rfl | ⟨nnn, rfl⟩
  · exact .inl hsame
  · obtain rfl := next_inj ((execRet_ok s (stack_ne_nil_of_no_fatal hf)).symm.trans h)
    exact .inr (.inl rfl)
  · have hlen := fatalKind_call_eq_none.1 hf
    obtain rfl := next_inj ((execCall_ok nnn s hlen).symm.trans h)
    exact .inr (.inr ⟨hlen, rfl⟩)

/-- `PC` after a skip. -/
theorem State.skipIf_pc_cases (s : State) (c : Bool) : (s.skipIf c).pc = s.pc ∨ (s.skipIf c).pc = s.pc + 2 := by
  cases c
  · exact .inl rfl
  · exact .inr rfl

/-- Where `PC` can be after a meaning without a fatal error: as it was, a skip further, at an immediate target, at the target of
`JP V0`, or at a return address (R13, R85, R96). -/
theorem exec_pc_cases {i : Instr} {s t : State} (hf : fatalKind i s = none) (h : exec i s = .next t) :
    (t.pc = s.pc ∨ t.pc = s.pc + 2) ∨ (∃ nnn, t.pc = addrImm nnn) ∨ (∃ nnn, t.pc = addrImm nnn + s.regWide 0) ∨
      t.pc ∈ s.stack := by
  obtain ⟨-, -, -, -, -, -, -, -, -, hpc⟩ := exec_frame hf h
  rcases hpc with hsame | hw
  · exact .inl (.inl hsame)
  cases i with
  | ret =>
    have hne := stack_ne_nil_of_no_fatal hf
    obtain rfl := next_inj ((execRet_ok s hne).symm.trans h)
    exact .inr (.inr (.inr (List.getLast_mem hne)))
  | call nnn =>
    obtain rfl := next_inj ((execCall_ok nnn s (fatalKind_call_eq_none.1 hf)).symm.trans h)
    exact .inr (.inl ⟨nnn, rfl⟩)
  | jp nnn =>
    obtain rfl := next_inj h
    exact .inr (.inl ⟨nnn, rfl⟩)
  | jpV0 nnn =>
    obtain rfl := next_inj h
    exact .inr (.inr (.inl ⟨nnn, rfl⟩))
  | seImm | sneImm | seReg | sneReg | skp | sknp =>
    obtain rfl := next_inj h
    exact .inl (s.skipIf_pc_cases _)
  | _ => cases hw

/-- An immediate address is below 4096. -/
theorem addrImm_lt (nnn : BitVec 12) : (addrImm nnn).toNat < 4096 := by
  have := nnn.isLt
  simp only [addrImm, BitVec.toNat_setWidth]
  omega

/-- The target of `JP V0` is at most 0xFFF + 0xFF (R84). -/
theorem addrImm_add_regWide_le (nnn : BitVec 12) (s : State) (x : Reg) : (addrImm nnn + s.regWide x).toNat ≤ 0x10FE := by
  have hn := addrImm_lt nnn
  have hb := (s.reg x).isLt
  have hw : (s.regWide x).toNat = (s.reg x).toNat := by
    simp only [State.regWide, BitVec.toNat_setWidth]
    omega
  rw [BitVec.toNat_add, hw]
  omega

/-- A meaning without a fatal error keeps memory canonical: the two stores write inside it, no other instruction writes it. -/
theorem exec_wf {i : Instr} {s t : State} (hm : s.mem.wf) (hf : fatalKind i s = none) (h : exec i s = .next t) :
    t.mem.wf := by
  obtain ⟨-, -, -, -, hmem, -⟩ := exec_frame hf h
  rcases hmem with hsame | ⟨x, rfl | rfl⟩
  · rwa [hsame]
  · obtain ⟨m, he, hw⟩ := execLdBVx_ok x s (fatalKind_ldBVx_eq_none.1 hf)
    obtain rfl := next_inj (he.symm.trans h)
    exact memWriteBytes_wf _ _ _ _ hm hw
  · obtain ⟨m, he, hw⟩ := execLdMemVx_ok x s (fatalKind_ldMemVx_eq_none.1 hf)
    obtain rfl := next_inj (he.symm.trans h)
    exact memWriteBytes_wf _ _ _ _ hm hw

/-! ## The invariant -/

/-- Outside `Halted` the invariant is no fault record and the four clauses on memory, the stack and `PC`. -/
theorem State.inv_of_live {t : State} (hrun : t.run ≠ .halted) (hfault : t.fault = none) (hmem : t.mem.wf)
    (hdepth : t.stack.length ≤ 16) (hpc : t.pc.toNat ≤ 0x10FE) (hret : ∀ a ∈ t.stack, a.toNat < 4096) : t.Inv where
  mem := hmem
  depth := fun _ => hdepth
  fault := by simp [hfault, hrun]
  display := fun e => absurd e hrun
  pc := fun _ => hpc
  ret := fun _ => hret

/-- Outside `Halted` the invariant leaves no fault record (R19). -/
theorem State.Inv.fault_eq_none {s : State} (h : s.Inv) (hr : s.run ≠ .halted) : s.fault = none := by
  have hsome := h.fault
  simpa [hr] using hsome

/-- In a state outside `Halted` that keeps memory, stack, `PC` and `FAULT`, the invariant is kept. -/
theorem State.Inv.of_same {s t : State} (h : s.Inv) (hs : s.run ≠ .halted) (ht : t.run ≠ .halted) (hmem : t.mem = s.mem)
    (hstack : t.stack = s.stack) (hpc : t.pc = s.pc) (hfault : t.fault = s.fault) : t.Inv :=
  State.inv_of_live ht (hfault.trans (h.fault_eq_none hs)) (hmem ▸ h.mem) (hstack ▸ h.depth hs) (hpc ▸ h.pc hs)
    (hstack ▸ h.ret hs)

/-- The fatal-error entry meets the invariant from any state (R167, R168). -/
theorem State.raise_inv (s : State) (k : Fault) (pc0 : Word) (op : Option Word) : (s.raise k pc0 op).Inv where
  mem := s.raise_wf k pc0 op
  depth := fun hr => absurd rfl hr
  fault := by simp
  display := fun _ => rfl
  pc := fun hr => absurd rfl hr
  ret := fun hr => absurd rfl hr

/-- A state just constructed by `reset_load` with a canonical memory meets the invariant (R31). -/
theorem State.inv_of_reset {m : Memory} (hm : m.wf) (calls again : List HostCall) (draws : Nat) :
    { State.reset with mem := m, calls := calls, again := again, draws := draws }.Inv :=
  State.inv_of_live (fun e => nomatch e) rfl hm (Nat.zero_le 16) (show 0x200 ≤ 0x10FE by decide) (fun _ ha => nomatch ha)

/-- Taking the host's next call keeps the invariant: it touches the model's own fields alone (log 1). -/
theorem State.Inv.take {s : State} (h : s.Inv) (rest : List HostCall) : (s.take rest).Inv :=
  ⟨h.mem, h.depth, h.fault, h.display, h.pc, h.ret⟩

/-- A tick keeps the invariant: it touches the timers alone (R174). -/
theorem State.Inv.tickTimers {s : State} (h : s.Inv) : s.tickTimers.Inv := by
  obtain ⟨d, e, ht⟩ := s.tickTimers_eq
  rw [ht]
  exact ⟨h.mem, h.depth, h.fault, h.display, h.pc, h.ret⟩

/-- The bounds on the stack are kept by a meaning that finds an address in `PC`: `CALL` pushes that `PC`, and only below depth 16. -/
theorem State.Inv.stack_of_exec {i : Instr} {s t : State} (hs : s.Inv) (hr : s.run ≠ .halted) (hp : s.pc.toNat < 4096)
    (hf : fatalKind i s = none) (h : exec i s = .next t) : t.stack.length ≤ 16 ∧ ∀ a ∈ t.stack, a.toNat < 4096 := by
  rcases exec_stack_cases hf h with hst | hst | ⟨hlen, hst⟩ <;> rw [hst]
  · exact ⟨hs.depth hr, hs.ret hr⟩
  · refine ⟨?_, fun a ha => hs.ret hr a (List.mem_of_mem_dropLast ha)⟩
    have hdepth := hs.depth hr
    rw [List.length_dropLast]
    omega
  · refine ⟨by simpa using hlen, fun a ha => ?_⟩
    rcases List.mem_append.1 ha with ha | ha
    · exact hs.ret hr a ha
    · rwa [List.mem_singleton.1 ha]

/-- The bound on `PC` is kept by a meaning that finds an address in `PC`: a skip adds 2 to it, a return address is an address, and the
target of `JP V0` is the bound. -/
theorem State.Inv.pc_of_exec {i : Instr} {s t : State} (hs : s.Inv) (hr : s.run ≠ .halted) (hp : s.pc.toNat < 4096)
    (hf : fatalKind i s = none) (h : exec i s = .next t) : t.pc.toNat ≤ 0x10FE := by
  rcases exec_pc_cases hf h with (hpc | hpc) | ⟨nnn, hpc⟩ | ⟨nnn, hpc⟩ | hpc
  · rw [hpc]
    omega
  · rw [hpc]
    bv_omega
  · rw [hpc]
    exact Nat.le_trans (Nat.le_of_lt (addrImm_lt nnn)) (by decide)
  · rw [hpc]
    exact addrImm_add_regWide_le nnn s 0
  · exact Nat.le_trans (Nat.le_of_lt (hs.ret hr _ hpc)) (by decide)

/-- A meaning keeps the invariant when the `PC` it finds, advanced by the fetch, is an address: that `PC` is what `CALL` pushes and what a
skip adds 2 to. -/
theorem exec_inv {i : Instr} {s t : State} (hs : s.Inv) (hr : s.run ≠ .halted) (hp : s.pc.toNat < 4096)
    (h : exec i s = .next t) : t.Inv := by
  cases hf : fatalKind i s with
  | some k =>
    obtain rfl := next_inj ((exec_of_fatal hf).symm.trans h)
    exact State.raise_inv _ _ _ _
  | none =>
    obtain ⟨⟨hfault, -⟩, -⟩ := exec_frame hf h
    obtain ⟨hdepth, hret⟩ := hs.stack_of_exec hr hp hf h
    exact State.inv_of_live (exec_run_ne_halted hr hf h) (hfault.trans (hs.fault_eq_none hr)) (exec_wf hs.mem hf h)
      hdepth (hs.pc_of_exec hr hp hf h) hret

/-- The state an instruction executes in: the invariant is kept, and `PC` is an address, by the check after the fetch (R46). -/
theorem State.Inv.executing {s : State} (h : s.Inv) (hf : s.fetchable) (a : CycleInput) (rest : List HostCall) :
    (s.executing a rest).Inv ∧ (s.executing a rest).run ≠ .halted ∧ (s.executing a rest).pc.toNat < 4096 := by
  obtain ⟨hrun, hpc⟩ := hf
  have hlive : s.run ≠ .halted := by simp [hrun]
  have hpc' : (s.executing a rest).pc.toNat < 4096 := by
    rw [State.executing_pc]
    bv_omega
  exact ⟨State.inv_of_live hlive (h.fault_eq_none hlive) h.mem (h.depth hlive) (by omega) (h.ret hlive), hlive, hpc'⟩

/-- Settles O12: by what each of the host's calls can do. An executed instruction is the case with content; it rests on the check after
the fetch, which bounds what `CALL` pushes (D16). -/
theorem everyStepKeepsInvariant : Obligations.EveryStepKeepsInvariant := by
  intro s t hs h
  rcases step_cases h with ⟨a, rest, -, hcycle⟩ | ⟨rest, -, rfl⟩ | ⟨rom, rest, m, -, hm, rfl⟩
  · rcases hcycle with ⟨-, rfl⟩ | ⟨r, hr, rfl⟩ | ⟨-, -, rfl⟩ | ⟨hf, he⟩
    · exact hs.take rest
    · obtain ⟨v, run, hk, hrun⟩ := State.keyCapture_eq ((s.take rest).beginCycle a) r hr
      rw [hk]
      exact hs.of_same (by simp [hr]) hrun rfl rfl rfl rfl
    · exact State.raise_inv _ _ _ _
    · obtain ⟨hinv, hrun, hpc⟩ := hs.executing hf a rest
      exact exec_inv hinv hrun hpc he
  · exact (hs.take rest).tickTimers
  · exact State.inv_of_reset hm _ _ _

/-- Settles O11: the bare reset state is the state after `reset_load` with nothing listed in memory. -/
theorem resetStateMeetsInvariant : Obligations.ResetStateMeetsInvariant :=
  State.inv_of_reset Memory.wf_nil [] [] 0

end Sys2Proof.Machine
end

section
/-! No instruction, no timer and no call of the host can learn the sound timer or `display_updated` (R17, R22): `State.withSound` puts any
values into both, and a meaning or a step from there ends where it would have, up to these two. -/

namespace Sys2Proof.Machine

/-- `s` with any value in `ST` and in `display_updated`. -/
def State.withSound (s : State) (v : Byte) (d : Bool) : State := { s with st := v, displayUpdated := d }

/-- The outcome is `t` up to `ST` and `display_updated`. -/
def nextUpToSound (r : Host.Outcome State Fault Refusal) (t : State) : Prop :=
  ∃ v d, r = .next (t.withSound v d)

/-- A next state that equals `t` is `t` up to the two. -/
theorem nextUpToSound_of_eq {r : Host.Outcome State Fault Refusal} {t : State} (h : r = .next t) : nextUpToSound r t :=
  ⟨t.st, t.displayUpdated, h⟩

/-- The fatal-error entry overwrites both, so it forgets what they held (R167, R168). -/
theorem State.raise_withSound (s : State) (v : Byte) (d : Bool) (k : Fault) (pc0 : Word) (op : Option Word) :
    (s.withSound v d).raise k pc0 op = s.raise k pc0 op := rfl

/-- The same inside a meaning: the record is made of `PC` and the instruction (R19). -/
theorem State.raiseIn_withSound (s : State) (v : Byte) (d : Bool) (i : Instr) (k : Fault) :
    (s.withSound v d).raiseIn i k = s.raiseIn i k := rfl

/-- The condition of a fatal error reads neither (R161 to R163). -/
theorem fatalKind_withSound (i : Instr) (s : State) (v : Byte) (d : Bool) :
    fatalKind i (s.withSound v d) = fatalKind i s := by
  cases i <;> rfl

/-- A skip moves `PC` alone (R96). -/
theorem State.skipIf_withSound (s : State) (v : Byte) (d c : Bool) :
    (s.withSound v d).skipIf c = (s.skipIf c).withSound v d := by
  cases c <;> rfl

/-- `LD B` and `LD [I]` store what registers hold, at `I` (R123, R124). -/
theorem State.storeAtI_withSound {s : State} {bytes : List Byte} {m : Memory} (v : Byte) (d : Bool)
    (h : memWriteBytes s.mem s.i.toNat bytes = .ok m) :
    (s.withSound v d).storeAtI bytes = .ok ({ s with mem := m }.withSound v d) := by
  have h' : memWriteBytes (s.withSound v d).mem ((s.withSound v d).effAddr 0) bytes = .ok m := h
  simp only [State.storeAtI, h']
  rfl

/-- A meaning learns neither: it raises the same fatal error, or does the same to everything else. -/
theorem exec_withSound {i : Instr} {s t : State} (v : Byte) (d : Bool) (h : exec i s = .next t) :
    nextUpToSound (exec i (s.withSound v d)) t := by
  cases hf : fatalKind i s with
  | some k =>
    have hf' := (fatalKind_withSound i s v d).trans hf
    obtain rfl := next_inj ((exec_of_fatal hf).symm.trans h)
    exact nextUpToSound_of_eq ((exec_of_fatal hf').trans (congrArg Host.Outcome.next (s.raiseIn_withSound v d i k)))
  | none =>
    cases i with
    | call nnn =>
      have hlen := fatalKind_call_eq_none.1 hf
      obtain rfl := next_inj ((execCall_ok nnn s hlen).symm.trans h)
      exact ⟨v, d, execCall_ok nnn (s.withSound v d) hlen⟩
    | ret =>
      have hne := stack_ne_nil_of_no_fatal hf
      obtain rfl := next_inj ((execRet_ok s hne).symm.trans h)
      exact ⟨v, d, execRet_ok (s.withSound v d) hne⟩
    | drw x y n =>
      have hin := fatalKind_drw_eq_none.1 hf
      obtain rfl := next_inj ((execDrw_ok x y n s hin).symm.trans h)
      exact ⟨v, true, execDrw_ok x y n (s.withSound v d) hin⟩
    | ldBVx x =>
      obtain ⟨m, he, hw⟩ := execLdBVx_ok x s (fatalKind_ldBVx_eq_none.1 hf)
      obtain rfl := next_inj (he.symm.trans h)
      exact ⟨v, d, congrArg ((s.withSound v d).commit (.ldBVx x)) (State.storeAtI_withSound v d hw)⟩
    | ldMemVx x =>
      obtain ⟨m, he, hw⟩ := execLdMemVx_ok x s (fatalKind_ldMemVx_eq_none.1 hf)
      obtain rfl := next_inj (he.symm.trans h)
      exact ⟨v, d, congrArg ((s.withSound v d).commit (.ldMemVx x)) (State.storeAtI_withSound v d hw)⟩
    | ldVxMem x =>
      have hin := fatalKind_ldVxMem_eq_none.1 hf
      obtain rfl := next_inj ((execLdVxMem_ok x s hin).symm.trans h)
      exact ⟨v, d, execLdVxMem_ok x (s.withSound v d) hin⟩
    | seImm | sneImm | seReg | sneReg | skp | sknp =>
      obtain rfl := next_inj h
      exact ⟨v, d, congrArg Host.Outcome.next (s.skipIf_withSound v d _)⟩
    | ldSTVx x =>
      obtain rfl := next_inj h
      exact ⟨s.reg x, d, rfl⟩
    | cls =>
      obtain rfl := next_inj h
      exact ⟨v, true, rfl⟩
    | _ =>
      obtain rfl := next_inj h
      exact ⟨v, d, rfl⟩

/-- A wait or a capture learns neither (R27). -/
theorem State.keyCapture_withSound (s : State) (v : Byte) (d : Bool) (r : Reg) :
    (s.withSound v d).keyCapture r = (s.keyCapture r).withSound v d := by
  have hkeys : (s.withSound v d).keysNow = s.keysNow := rfl
  rw [State.keyCapture, State.keyCapture, hkeys]
  cases lowestKey s.keysNow <;> rfl

/-- A tick takes nothing from `ST` to anything else (R174). -/
theorem State.tickTimers_withSound (s : State) (v : Byte) (d : Bool) :
    ∃ v', (s.withSound v d).tickTimers = (s.tickTimers).withSound v' d := by
  have hrun : (s.withSound v d).run = s.run := rfl
  rw [State.tickTimers, State.tickTimers, hrun]
  cases s.run with
  | halted => exact ⟨v, rfl⟩
  | _ => exact ⟨decTimer v, rfl⟩

/-- A step learns neither: from any values of the two it ends in the same state but for these two. -/
theorem step_withSound {s t : State} (v : Byte) (d : Bool) (h : step s = .next t) :
    nextUpToSound (step (s.withSound v d)) t := by
  have hcall : (s.withSound v d).nextCall = s.nextCall := rfl
  rcases step_cases h with ⟨a, rest, hn, hcycle⟩ | ⟨rest, hn, rfl⟩ | ⟨rom, rest, m, hn, -, rfl⟩
  · rcases hcycle with ⟨hr, rfl⟩ | ⟨r, hr, rfl⟩ | ⟨hr, hp, rfl⟩ | ⟨hf, he⟩
    · rw [step_of_cycle (hcall.trans hn), State.cycle_halted a (by exact hr)]
      exact ⟨v, d, rfl⟩
    · rw [step_of_cycle (hcall.trans hn), State.cycle_awaiting a (by exact hr)]
      exact ⟨v, false, congrArg Host.Outcome.next (((s.take rest).beginCycle a).keyCapture_withSound v false r)⟩
    · rw [step_of_cycle (hcall.trans hn), State.cycle_running a (by exact hr),
        State.fetchDecodeExecute_error _ (by exact hp)]
      exact nextUpToSound_of_eq (congrArg Host.Outcome.next (((s.take rest).beginCycle a).raise_withSound v false _ _ _))
    · rw [step_of_fetchable (hcall.trans hn) hf]
      exact exec_withSound v false he
  · obtain ⟨v', ht⟩ := (s.take rest).tickTimers_withSound v d
    exact ⟨v', d, (step_of_tick (hcall.trans hn)).trans (congrArg Host.Outcome.next ht)⟩
  · rw [step_of_reset hn] at h
    exact nextUpToSound_of_eq ((step_of_reset (hcall.trans hn)).trans h)

/-- Settles O30: a step from the other two values ends in the same state but for these two. -/
theorem soundTimerUnobservable : Obligations.SoundTimerUnobservable := by
  intro s t v d h
  obtain ⟨v', d', ht⟩ := step_withSound v d h
  exact ⟨_, ht, rfl, rfl, fun _ => rfl⟩

end Sys2Proof.Machine
end

section
/-! Who writes what (R11 to R14, R18, R22): a step short of a reset and a fatal error is a tick, a wait or capture, or an executed
instruction, and each piece of state is traced to the instructions that write it. -/

namespace Sys2Proof.Machine

/-! ## The three kinds of step short of a reset and a fatal error -/

/-- A step that is no reset and does not end in `Halted`: a tick, which changes timers alone; a wait or a capture, which changes registers
and `RUN` alone; or an instruction without a fatal error. -/
theorem live_step_cases {s t : State} (hreset : ¬ s.nextIsReset) (h : step s = .next t) (ht : t.run ≠ .halted) :
    (∃ rest, t = (s.take rest).tickTimers) ∨
    (s.nextIsCycle ∧ ∃ a rest r, s.run = .awaitingKey r ∧ t = ((s.take rest).beginCycle a).keyCapture r) ∨
    (s.nextIsCycle ∧ s.fetchable ∧ ∃ a rest, fatalKind s.instrAtPC (s.executing a rest) = none ∧
      exec s.instrAtPC (s.executing a rest) = .next t) := by
  rcases s.nextCall_cases with hc | ⟨rest, hn⟩ | hr
  · rcases cycle_cases hc h ht with ⟨a, rest, r, hk⟩ | ⟨a, rest, -, hf, he⟩
    · exact .inr (.inl ⟨hc, a, rest, r, hk⟩)
    · exact .inr (.inr ⟨hc, hf, a, rest, he⟩)
  · exact .inl ⟨rest, next_inj (h.symm.trans (step_of_tick hn))⟩
  · exact absurd hr hreset

/-- A tick leaves registers, stack, `I` and `RUN` (R174). -/
theorem State.tickTimers_frame (s : State) :
    s.tickTimers.v = s.v ∧ s.tickTimers.stack = s.stack ∧ s.tickTimers.i = s.i ∧ s.tickTimers.run = s.run := by
  obtain ⟨d, e, ht⟩ := s.tickTimers_eq
  rw [ht]
  exact ⟨rfl, rfl, rfl, rfl⟩

/-- A wait and a capture leave everything but registers and `RUN` (R27). -/
theorem State.keyCapture_frame {s : State} {r : Reg} (h : s.run = .awaitingKey r) :
    (s.keyCapture r).pc = s.pc ∧ (s.keyCapture r).i = s.i ∧ (s.keyCapture r).mem = s.mem ∧
    (s.keyCapture r).fb = s.fb ∧ (s.keyCapture r).stack = s.stack ∧ (s.keyCapture r).dt = s.dt ∧
    (s.keyCapture r).st = s.st ∧ (s.keyCapture r).fault = s.fault ∧
    (s.keyCapture r).displayUpdated = s.displayUpdated := by
  obtain ⟨v, run, hk, -⟩ := s.keyCapture_eq r h
  rw [hk]
  exact ⟨rfl, rfl, rfl, rfl, rfl, rfl, rfl, rfl, rfl⟩

/-- Where the stack or `I` changed, short of a reset and a fatal error, an instruction was executed. -/
theorem live_step_executes {s t : State} (hreset : ¬ s.nextIsReset) (h : step s = .next t) (ht : t.run ≠ .halted)
    (hne : ¬ (t.stack = s.stack ∧ t.i = s.i)) :
    s.nextIsCycle ∧ s.fetchable ∧ ∃ a rest, fatalKind s.instrAtPC (s.executing a rest) = none ∧
      exec s.instrAtPC (s.executing a rest) = .next t := by
  rcases live_step_cases hreset h ht with ⟨rest, rfl⟩ | ⟨-, a, rest, r, hr, rfl⟩ | hexec
  · obtain ⟨-, hstack, hi, -⟩ := (s.take rest).tickTimers_frame
    exact absurd ⟨hstack, hi⟩ hne
  · obtain ⟨-, hi, -, -, hstack, -⟩ := State.keyCapture_frame (s := (s.take rest).beginCycle a) hr
    exact absurd ⟨hstack, hi⟩ hne
  · exact hexec

/-! ## The register file -/

/-- A register instruction writes its destination, after the flag where it sets one, and nothing else (R114). -/
theorem exec_of_regDest {i : Instr} {x : Reg} {s t : State} (hd : i.regDest = some x) (h : exec i s = .next t) :
    (∃ b, t = s.setReg x b) ∨ (i.setsFlag = true ∧ ∃ f b, t = s.setFlagThen f x b) := by
  cases i with
  | ldImm | addImm | ldReg | orReg | andReg | xorReg | rnd | ldVxDT =>
    obtain rfl := Option.some.inj hd
    exact .inl ⟨_, (next_inj h).symm⟩
  | addReg | subReg | shr | subnReg | shl =>
    obtain rfl := Option.some.inj hd
    exact .inr ⟨rfl, _, _, (next_inj h).symm⟩
  | _ => cases hd

/-- A register that is neither the destination nor the flag of a register instruction is as before (R114). -/
theorem exec_reg_of_regDest {i : Instr} {x y : Reg} {s t : State} (hd : i.regDest = some x) (h : exec i s = .next t)
    (hx : y ≠ x) (hflag : i.setsFlag = true → y ≠ VF) : t.reg y = s.reg y := by
  rcases exec_of_regDest hd h with ⟨b, rfl⟩ | ⟨hset, f, b, rfl⟩
  · exact s.reg_setReg_ne b hx
  · exact s.reg_setFlagThen_ne f b hx (hflag hset)

/-- Short of a fatal error an instruction that is no register instruction, no `DRW` and no block load leaves the register file. -/
theorem exec_v_of_no_regDest {i : Instr} {s t : State} (hd : i.regDest = none) (hf : fatalKind i s = none)
    (h : exec i s = .next t) :
    t.v = s.v ∨ (∃ x y n, i = .drw x y n) ∨ ∃ x, i = .ldVxMem x := by
  cases i with
  | drw x y n => exact .inr (.inl ⟨x, y, n, rfl⟩)
  | ldVxMem x => exact .inr (.inr ⟨x, rfl⟩)
  | call nnn =>
    obtain rfl := next_inj ((execCall_ok nnn s (fatalKind_call_eq_none.1 hf)).symm.trans h)
    exact .inl rfl
  | ret =>
    obtain rfl := next_inj ((execRet_ok s (stack_ne_nil_of_no_fatal hf)).symm.trans h)
    exact .inl rfl
  | ldBVx x =>
    obtain ⟨m, he, -⟩ := execLdBVx_ok x s (fatalKind_ldBVx_eq_none.1 hf)
    obtain rfl := next_inj (he.symm.trans h)
    exact .inl rfl
  | ldMemVx x =>
    obtain ⟨m, he, -⟩ := execLdMemVx_ok x s (fatalKind_ldMemVx_eq_none.1 hf)
    obtain rfl := next_inj (he.symm.trans h)
    exact .inl rfl
  | seImm | sneImm | seReg | sneReg | skp | sknp =>
    obtain rfl := next_inj h
    exact .inl (s.skipIf_v _)
  | cls | sys | jp | ldI | jpV0 | ldVxK | ldDTVx | ldSTVx | addIVx | ldFVx | unknown =>
    obtain rfl := next_inj h
    exact .inl rfl
  | _ => cases hd

/-- A block load up to `V[x]` leaves the registers above it (R125). -/
theorem exec_ldVxMem_reg_above {x y : Reg} {s t : State} (hf : fatalKind (.ldVxMem x) s = none)
    (h : exec (.ldVxMem x) s = .next t) (hy : x < y) : t.reg y = s.reg y := by
  obtain rfl := next_inj ((execLdVxMem_ok x s (fatalKind_ldVxMem_eq_none.1 hf)).symm.trans h)
  rw [State.reg_loadRegs]
  have hlen : x.val + 1 ≤ y.val := hy
  exact List.getD_eq_default _ _ (by simpa using hlen)

/-- Of the register instructions R11 lists those that set a flag and those whose destination is `VF`. -/
theorem mayWriteVF_of_regDest {i : Instr} {x : Reg} (hd : i.regDest = some x) :
    i.mayWriteVF = (i.setsFlag || some x == some VF) := by
  rw [← hd]
  cases i with
  | drw | ldVxMem => cases hd
  | _ => rfl

/-- Short of a fatal error an instruction outside R11's list leaves `VF`. -/
theorem exec_VF_of_not_mayWriteVF {i : Instr} {s t : State} (hw : i.mayWriteVF = false) (hf : fatalKind i s = none)
    (h : exec i s = .next t) : t.reg VF = s.reg VF := by
  cases hd : i.regDest with
  | some x =>
    obtain ⟨hflag, hx⟩ : i.setsFlag = false ∧ x ≠ VF := by
      simpa [mayWriteVF_of_regDest hd] using hw
    exact exec_reg_of_regDest hd h hx.symm (by simp [hflag])
  | none =>
    rcases exec_v_of_no_regDest hd hf h with hv | ⟨x, y, n, rfl⟩ | ⟨x, rfl⟩
    · simp only [State.reg, hv]
    · cases hw
    · have hx : x ≠ VF := by simpa [Instr.mayWriteVF] using hw
      exact exec_ldVxMem_reg_above hf h (lt_of_le_of_ne (Fin.le_last x) hx)

/-! ## The obligations -/

/-- Settles O49: a register instruction is a register write, or a flag write and a register write. -/
theorem registerInstructionsFrame : Obligations.RegisterInstructionsFrame := by
  intro i x s t hd h
  refine ⟨fun y hx hflag => exec_reg_of_regDest hd h hx hflag, ?_⟩
  rcases exec_of_regDest hd h with ⟨b, rfl⟩ | ⟨-, f, b, rfl⟩
  · exact ⟨fun _ => rfl, rfl, rfl, rfl, rfl, rfl, rfl, rfl, rfl, rfl⟩
  · exact ⟨fun _ => rfl, rfl, rfl, rfl, rfl, rfl, rfl, rfl, rfl, rfl⟩

/-- Settles O25: a change of the stack is an executed instruction's, and by the frame of the meanings it is `RET` or `CALL`. -/
theorem stackOnlyByCallRet : Obligations.StackOnlyByCallRet := by
  intro s t hreset h ht hne
  obtain ⟨hc, hf, a, rest, hk, he⟩ := live_step_executes hreset h ht fun hsame => hne hsame.1
  obtain ⟨-, -, -, -, -, hstack, -⟩ := exec_frame hk he
  exact ⟨hc, hf, hstack.resolve_left hne⟩

/-- Settles O26: a change of `I` is an executed instruction's, and by the frame of the meanings it is `LD I`, `ADD I` or `LD F`. -/
theorem indexOnlyByItsWriters : Obligations.IndexOnlyByItsWriters := by
  intro s t hreset h ht hne
  obtain ⟨hc, hf, a, rest, hk, he⟩ := live_step_executes hreset h ht fun hsame => hne hsame.2
  obtain ⟨-, -, -, -, -, -, hi, -⟩ := exec_frame hk he
  exact ⟨hc, hf, hi.resolve_left hne⟩

/-- Only the awaited register can change in a wait or a capture (R27). -/
theorem State.keyCapture_reg_ne (s : State) {r y : Reg} (h : y ≠ r) : (s.keyCapture r).reg y = s.reg y := by
  rcases s.keyCapture_cases r with ⟨k, -, hk⟩ | ⟨-, hk⟩
  · rw [hk]
    exact s.reg_setReg_ne _ h
  · rw [hk]

/-- Settles O27: a tick writes no register, a capture only the awaited one, an instruction outside R11's list not `VF`. -/
theorem flagRegisterWriters : Obligations.FlagRegisterWriters := by
  intro s t hreset h ht hne
  rcases live_step_cases hreset h ht with ⟨rest, rfl⟩ | ⟨hc, a, rest, r, hr, rfl⟩ | ⟨hc, hf, a, rest, hk, he⟩
  · obtain ⟨hv, -⟩ := (s.take rest).tickTimers_frame
    exact absurd (congrArg (·.get VF) hv) hne
  · have hVF : VF = r := by
      by_contra hVF
      exact hne (State.keyCapture_reg_ne _ hVF)
    exact ⟨hc, .inl (hVF ▸ hr)⟩
  · refine ⟨hc, .inr ⟨hf, ?_⟩⟩
    by_contra hw
    exact hne (exec_VF_of_not_mayWriteVF (s := s.executing a rest) (by simpa using hw) hk he)

/-- A machine that is still waiting after a wait or a capture was waiting for the same register (R27). -/
theorem State.run_of_keyCapture_awaiting {s : State} {q r : Reg} (h : (s.keyCapture q).run = .awaitingKey r) :
    s.run = .awaitingKey r := by
  rcases s.keyCapture_cases q with ⟨k, -, hk⟩ | ⟨-, hk⟩
  · rw [hk] at h
    cases h
  · rwa [hk] at h

/-- Settles O20: a reset ends in `Running`, a tick keeps `RUN`, a wait keeps its register and a capture resumes; of the instructions only
`LD Vx, K` sets the marker. -/
theorem awaitingOnlyByKeyWait : Obligations.AwaitingOnlyByKeyWait := by
  intro s t r h hrun
  rcases step_cases h with ⟨a, rest, hn, -⟩ | ⟨rest, -, rfl⟩ | ⟨rom, rest, m, -, -, rfl⟩
  · have hc : s.nextIsCycle := ⟨a, rest, hn⟩
    rcases cycle_cases hc h (by simp [hrun]) with ⟨a, rest, q, -, rfl⟩ | ⟨a, rest, -, hf, hk, he⟩
    · exact .inl (State.run_of_keyCapture_awaiting (s := (s.take rest).beginCycle a) hrun)
    · obtain ⟨-, hsame | ⟨x, hi, hx⟩, -⟩ := exec_frame hk he
      · exact .inl (hsame.symm.trans hrun)
      · obtain rfl := Run.awaitingKey.inj (hx.symm.trans hrun)
        exact .inr ⟨hc, hf, hi⟩
  · obtain ⟨-, -, -, hsame⟩ := (s.take rest).tickTimers_frame
    exact .inl (hsame.symm.trans hrun)
  · cases hrun

/-- Settles O28: by what a `cycle` that does not end in `Halted` is; an executed instruction finds `PC` advanced by the fetch. -/
theorem programCounterAdvance : Obligations.ProgramCounterAdvance := by
  intro s t hc h ht
  rcases cycle_cases hc h ht with ⟨a, rest, r, hr, rfl⟩ | ⟨a, rest, -, hf, hk, he⟩
  · obtain ⟨hpc, -⟩ := State.keyCapture_frame (s := (s.take rest).beginCycle a) hr
    exact ⟨fun hrun => by simp [hr] at hrun, fun _ => hpc⟩
  · obtain ⟨-, -, -, -, -, -, -, -, -, hpc⟩ := exec_frame hk he
    exact ⟨fun _ hw => hpc.resolve_right (by simp [hw]), fun hrun => absurd hf.1 hrun⟩

/-- Settles O29: a wait, a capture and a fatal error leave `display_updated` cleared; an executed instruction sets it exactly if it is
`CLS` or `DRW`. -/
theorem displayUpdatedExactly : Obligations.DisplayUpdatedExactly := by
  rintro s t ⟨a, rest, hn⟩ hlive h
  rcases cycle_step_cases hn h with ⟨hr, -⟩ | ⟨r, hr, rfl⟩ | ⟨-, -, rfl⟩ | ⟨hf, he⟩
  · exact absurd hr hlive
  · obtain ⟨-, -, -, -, -, -, -, -, hdisplay⟩ := State.keyCapture_frame (s := (s.take rest).beginCycle a) hr
    simp [hdisplay, State.fetchable, hr]
  · simp
  · cases hk : fatalKind s.instrAtPC (s.executing a rest) with
    | some k =>
      obtain rfl := next_inj ((exec_of_fatal hk).symm.trans he)
      simp
    | none =>
      have ht := exec_run_ne_halted (s := s.executing a rest) hlive hk he
      obtain ⟨-, -, -, hdisplay, -⟩ := exec_frame hk he
      simp [hdisplay, hf, ht]

end Sys2Proof.Machine
end

section
/-! The three operations of the host, each as a whole: the reset table (R31), the capture of a key (R27), the fetch of an instruction (R28)
and the inertness of `Halted` (R29, R182). -/

namespace Sys2Proof.Machine

/-! ## The content of memory after reset (R31, R41) -/

/-- Below 0x050 an unlisted byte is the font's. -/
theorem font_getElem?_eq_unlisted {a : Nat} (h : a < 80) : Config.font[a]? = some (Memory.unlisted a) := by
  have hlen : Config.font.length = 80 := by decide
  have hread : Memory.unlisted a = Config.font.getD a 0 := if_pos h
  rw [hread, List.getD_eq_getElem _ _ (by omega), List.getElem?_eq_getElem]

/-- From 0x050 on an unlisted byte is 0. -/
theorem unlisted_of_font_end_le {a : Nat} (h : 80 ≤ a) : Memory.unlisted a = 0 :=
  if_neg (Nat.not_lt.2 h)

/-- Every register is 0 after reset. -/
theorem reset_reg (x : Reg) : State.reset.reg x = 0 := by
  simp [State.reset, State.reg, Vector.get_eq_getElem]

/-- Settles O9: `reset_load` is the bare reset state with the ROM written over the reset content of memory. -/
theorem resetLoadGivesTable : Obligations.ResetLoadGivesTable := by
  intro s rom rest hn hlen
  obtain ⟨m, he, -, hrom, hout⟩ := State.resetLoad_ok (s.take rest) rom hlen
  refine ⟨_, (step_of_reset hn).trans he, reset_reg, rfl, rfl, rfl, fun a ha => ?_, fun a ha hb => ?_, hrom, fun a ha _ => ?_,
    fun k _ => fbGet_zero k, rfl, rfl, rfl, rfl, rfl, rfl⟩
  · show Config.font[a]? = some (m.read a)
    rw [hout a (by omega)]
    exact font_getElem?_eq_unlisted ha
  · exact (hout a (by omega)).trans (unlisted_of_font_end_le ha)
  · exact (hout a (by omega)).trans (unlisted_of_font_end_le (by omega))

/-! ## The cycle and the tick -/

/-- With no key pressed the wait goes on (R27). -/
theorem State.keyCapture_of_none {s : State} (r : Reg) (h : lowestKey s.keysNow = none) : s.keyCapture r = s := by
  simp only [State.keyCapture, h]

/-- With key `k` the lowest pressed one, the capture writes it and resumes (R27). -/
theorem State.keyCapture_of_some {s : State} {k : Nat} (r : Reg) (h : lowestKey s.keysNow = some k) :
    s.keyCapture r = { s.setReg r (BitVec.ofNat 8 k) with run := .running } := by
  simp only [State.keyCapture, h]

/-- A tick in `Halted` changes nothing (R182). -/
theorem State.tickTimers_of_halted {s : State} (h : s.run = .halted) : s.tickTimers = s := by
  simp only [State.tickTimers, h]

/-- Settles O13: the decoder on the two bytes at `PC` is the instruction at `PC`, which a fetchable state's `cycle` executes. -/
theorem stepRunsDecodedInstruction : Obligations.StepRunsDecodedInstruction := by
  intro s i a rest hf hn hd
  obtain rfl : s.instrAtPC = i := congrArg Prod.fst (Except.ok.inj hd)
  exact step_of_fetchable hn hf

/-- Settles O18: either call in `Halted` ends in the state it was called in, the call taken off the schedule. -/
theorem haltedIsInert : Obligations.HaltedIsInert := by
  intro s hr
  refine ⟨fun a rest hn => ?_, fun rest hn => ?_⟩
  · exact (step_of_cycle hn).trans (State.cycle_halted (s := s.take rest) a hr)
  · rw [step_of_tick hn, State.tickTimers_of_halted (by exact hr)]
    rfl

/-- Settles O19: the scan for the lowest key finds none or exactly that key, and the capture touches registers and `RUN` alone. -/
theorem keyCaptureTakesLowestKey : Obligations.KeyCaptureTakesLowestKey := by
  intro s r keys rnd rest hr hn
  have hstep := (step_of_cycle hn).trans (State.cycle_awaiting (s := s.take rest) ⟨keys, rnd⟩ hr)
  obtain ⟨hpc, hi, hmem, hfb, hstack, hdt, hst, hfault, -⟩ :=
    State.keyCapture_frame (s := (s.take rest).beginCycle ⟨keys, rnd⟩) hr
  refine ⟨_, hstep, fun hnone => ?_, fun k hk hpressed hlow => ?_, hpc, hi, hmem, hfb, hstack, hdt, hst, hfault⟩
  · rw [State.keyCapture_of_none (s := (s.take rest).beginCycle ⟨keys, rnd⟩) r (lowestKey_none.2 hnone)]
    exact ⟨hr, rfl⟩
  · have hcapture := State.keyCapture_of_some (s := (s.take rest).beginCycle ⟨keys, rnd⟩) r
      (lowestKey_some.2 ⟨hk, hpressed, hlow⟩)
    have hreg : (((s.take rest).beginCycle ⟨keys, rnd⟩).keyCapture r).reg r = BitVec.ofNat 8 k := by
      rw [hcapture]
      exact State.reg_setReg_same _ r _
    refine ⟨congrArg State.run hcapture, ?_, fun y hy => State.keyCapture_reg_ne _ hy⟩
    rw [hreg, BitVec.toNat_ofNat]
    omega

end Sys2Proof.Machine
end

section
/-! Memory (R40 to R58): what the checked accesses give, the one canonical form of each content, who writes memory, and the fetch from it:
outside memory, and of code that a store put there. -/

namespace Sys2Proof.Machine

/-! ## The checked accesses (R43, R44) -/

/-- Two memories that read the same at an address answer a checked read there the same, inside and outside memory. -/
theorem memRead_congr {m m' : Memory} {a : Nat} (h : m.read a = m'.read a) : memRead m a = memRead m' a := by
  simp only [memRead, h]

/-- Settles O6: below 4096 by the read after a write, at the same address and at another one; from 4096 on by the check. -/
theorem memWriteChangesOneByte : Obligations.MemWriteChangesOneByte := by
  intro m a b hm
  refine ⟨fun h => ⟨memRead_error m h, memWrite_error m b h⟩, fun h => ?_⟩
  refine ⟨memRead_ok m h, m.write a b, memWrite_ok m b h, ?_, fun c hc => memRead_congr (m.read_write_ne b hc)⟩
  rw [memRead_ok _ h, m.read_write_same a b hm.1]

/-! ## The canonical form (log 25) -/

/-- Where memory does not read as unlisted, the address is listed with the byte it reads as. -/
theorem Memory.mem_of_read_ne_unlisted {m : Memory} {a : Nat} (h : m.read a ≠ Memory.unlisted a) : (a, m.read a) ∈ m := by
  induction m with
  | nil => exact absurd rfl h
  | cons p m ih =>
    obtain ⟨k, d⟩ := p
    by_cases hk : a = k
    · simp [Memory.read, hk]
    · simp only [Memory.read, if_neg hk] at h ⊢
      exact List.mem_cons_of_mem _ (ih h)

/-- With rising addresses every entry is what its address reads as. -/
theorem Memory.read_of_mem {m : Memory} (hm : m.Pairwise fun p q => p.1 < q.1) {p : Host.Cell} (hp : p ∈ m) :
    m.read p.1 = p.2 := by
  induction m with
  | nil => cases hp
  | cons q m ih =>
    obtain ⟨hlt, hm⟩ := List.pairwise_cons.1 hm
    rcases List.mem_cons.1 hp with rfl | hp
    · exact if_pos rfl
    · exact (if_neg (hlt p hp).ne').trans (ih hm hp)

/-- What a canonical memory lists is fixed by what it reads as: the addresses below 4096 whose byte is not the unlisted one. -/
theorem Memory.mem_iff_read {m : Memory} (hm : m.wf) (p : Host.Cell) :
    p ∈ m ↔ p.1 < 4096 ∧ m.read p.1 = p.2 ∧ p.2 ≠ Memory.unlisted p.1 := by
  constructor
  · intro hp
    obtain ⟨hlt, hne⟩ := hm.2 p hp
    exact ⟨hlt, Memory.read_of_mem hm.1 hp, hne⟩
  · rintro ⟨-, hread, hne⟩
    have hp := Memory.mem_of_read_ne_unlisted (hread.symm ▸ hne)
    rwa [hread] at hp

/-- Settles O7: both memories list the same entries, in the rising order of their addresses. -/
theorem equalReadsEqualMemories : Obligations.EqualReadsEqualMemories := by
  intro m m' hm hm' hread
  have : Std.Irrefl fun p q : Host.Cell => p.1 < q.1 := ⟨fun p => lt_irrefl p.1⟩
  have : Std.Antisymm fun p q : Host.Cell => p.1 < q.1 := ⟨fun _ _ hpq hqp => absurd hpq hqp.asymm⟩
  refine hm.1.eq_of_mem_iff hm'.1 fun p => ?_
  rw [Memory.mem_iff_read hm, Memory.mem_iff_read hm']
  exact and_congr_right fun hlt => by rw [hread p.1 hlt]

/-! ## The writers of memory (R58) -/

/-- Settles O24: a tick, a wait and a capture leave memory, and by the frame of the meanings an instruction that changes it is a store. -/
theorem memoryOnlyByStores : Obligations.MemoryOnlyByStores := by
  intro s t hreset h ht hne
  rcases live_step_cases hreset h ht with ⟨rest, rfl⟩ | ⟨-, a, rest, r, hr, rfl⟩ | ⟨hc, hf, a, rest, hk, he⟩
  · obtain ⟨d, e, htick⟩ := (s.take rest).tickTimers_eq
    exact absurd (congrArg State.mem htick) hne
  · obtain ⟨-, -, hmem, -⟩ := State.keyCapture_frame (s := (s.take rest).beginCycle a) hr
    exact absurd hmem hne
  · obtain ⟨-, -, -, -, hmem, -⟩ := exec_frame hk he
    exact ⟨hc, hf, hmem.resolve_left hne⟩

/-! ## The fetch (R46) -/

/-- A `cycle` in `Running` with `PC` from 4094 on is the fatal-error entry, with no opcode (R46, R163). -/
theorem step_of_fetch_fault {s : State} {a : CycleInput} {rest : List HostCall} (hn : s.nextCall = (.cycle a, rest))
    (hr : s.run = .running) (hp : 4094 ≤ s.pc.toNat) :
    step s = .next (((s.take rest).beginCycle a).raise .addressOutOfRange s.pc none) := by
  rw [step_of_cycle hn, State.cycle_running (s := s.take rest) a hr]
  exact State.fetchDecodeExecute_error ((s.take rest).beginCycle a) hp

/-- Settles O14: the step is the fatal-error entry of the fetch, which writes the record. -/
theorem fetchFaultHalts : Obligations.FetchFaultHalts := by
  rintro s ⟨a, rest, hn⟩ hr hp
  exact ⟨_, step_of_fetch_fault hn hr hp, State.raise_run _ _ _ _, State.raise_fault _ _ _ _, State.raise_displayUpdated _ _ _ _⟩

/-- After `LD [I], Vx` inside memory the byte at `I + k` is `V[k]`, for each stored register (R124). -/
theorem exec_ldMemVx_read {s t : State} {x k : Reg} (hm : s.mem.wf) (hin : s.i.toNat + x.val < 4096)
    (h : exec (.ldMemVx x) s = .next t) (hk : k ≤ x) : t.mem.read (s.i.toNat + k.val) = s.reg k := by
  obtain ⟨m, hstore, -, hread, -⟩ := s.storeAtI_ok (s.regsUpTo x) hm (by rw [State.length_regsUpTo]; omega)
  have hexec : exec (.ldMemVx x) s = .next { s with mem := m } := congrArg (s.commit (.ldMemVx x)) hstore
  obtain rfl := next_inj (hexec.symm.trans h)
  have hlen : k.val < (s.regsUpTo x).length := by
    rw [State.length_regsUpTo]
    exact Nat.lt_succ_of_le hk
  exact (hread k.val hlen).trans (s.getElem_regsUpTo x k.val hlen)

/-- Settles O55: the fetch reads the two bytes at `PC`, which are the two stored registers (D21). -/
theorem storedCodeIsFetched : Obligations.StoredCodeIsFetched := by
  intro s t w x k k' hm hin h hk' hle hmem hpc hlast
  have hk : k ≤ x := by
    rw [Fin.le_def] at hle ⊢
    omega
  have hhi : w.mem.read w.pc.toNat = s.reg k := by
    rw [hmem, hpc]
    exact exec_ldMemVx_read hm hin h hk
  have hlo : w.mem.read (w.pc.toNat + 1) = s.reg k' := by
    rw [hmem, hpc, Nat.add_assoc, ← hk']
    exact exec_ldMemVx_read hm hin h hle
  rw [State.fetch_ok w hlast, State.opcodeAtPC, hhi, hlo]

end Sys2Proof.Machine
end

section
/-! The encoding (R60 to R71): the decoder against the encoder in both directions, against the opcode map, and the unknown space. Both
directions of the round trip go constructor by constructor and group by group; the opcode map and the unknown space then follow from them. -/

namespace Sys2Proof

/-! ## Sample words (R65) -/

/-- Settles O1 by evaluation of the decoder on each of the fifteen words. -/
theorem sampleWordsDecode : Obligations.SampleWordsDecode := by
  unfold Obligations.SampleWordsDecode
  decide

/-! ## From an instruction to its word and back -/

/-- The decoder undoes the encoder, assembled from the round trips of the constructors. -/
theorem decodeWord_encode {i : Instr} (h : i.WellFormed) : decodeWord (encode i) = i := by
  cases i with
  | cls => exact Laws.RoundTrip.cls h
  | ret => exact Laws.RoundTrip.ret h
  | sys nnn => exact Laws.RoundTrip.sys nnn h
  | jp nnn => exact Laws.RoundTrip.jp nnn h
  | call nnn => exact Laws.RoundTrip.call nnn h
  | seImm x kk => exact Laws.RoundTrip.seImm x kk h
  | sneImm x kk => exact Laws.RoundTrip.sneImm x kk h
  | seReg x y => exact Laws.RoundTrip.seReg x y h
  | ldImm x kk => exact Laws.RoundTrip.ldImm x kk h
  | addImm x kk => exact Laws.RoundTrip.addImm x kk h
  | ldReg x y => exact Laws.RoundTrip.ldReg x y h
  | orReg x y => exact Laws.RoundTrip.orReg x y h
  | andReg x y => exact Laws.RoundTrip.andReg x y h
  | xorReg x y => exact Laws.RoundTrip.xorReg x y h
  | addReg x y => exact Laws.RoundTrip.addReg x y h
  | subReg x y => exact Laws.RoundTrip.subReg x y h
  | shr x y => exact Laws.RoundTrip.shr x y h
  | subnReg x y => exact Laws.RoundTrip.subnReg x y h
  | shl x y => exact Laws.RoundTrip.shl x y h
  | sneReg x y => exact Laws.RoundTrip.sneReg x y h
  | ldI nnn => exact Laws.RoundTrip.ldI nnn h
  | jpV0 nnn => exact Laws.RoundTrip.jpV0 nnn h
  | rnd x kk => exact Laws.RoundTrip.rnd x kk h
  | drw x y n => exact Laws.RoundTrip.drw x y n h
  | skp x => exact Laws.RoundTrip.skp x h
  | sknp x => exact Laws.RoundTrip.sknp x h
  | ldVxDT x => exact Laws.RoundTrip.ldVxDT x h
  | ldVxK x => exact Laws.RoundTrip.ldVxK x h
  | ldDTVx x => exact Laws.RoundTrip.ldDTVx x h
  | ldSTVx x => exact Laws.RoundTrip.ldSTVx x h
  | addIVx x => exact Laws.RoundTrip.addIVx x h
  | ldFVx x => exact Laws.RoundTrip.ldFVx x h
  | ldBVx x => exact Laws.RoundTrip.ldBVx x h
  | ldMemVx x => exact Laws.RoundTrip.ldMemVx x h
  | ldVxMem x => exact Laws.RoundTrip.ldVxMem x h
  | unknown op => exact Laws.RoundTrip.unknown op h

/-- Settles O2: the decoder on bytes is the decoder on the word of the first two, which undoes the encoder. -/
theorem decodeOfEncode : Obligations.DecodeOfEncode := by
  intro i rest h
  have hword := decodeWord_encode h
  refine ⟨hword, ?_⟩
  calc decode (instrBytes i ++ rest)
      = .ok (decodeWord (encode i), rest) := decode_bytes (encode i) rest
    _ = .ok (i, rest) := by rw [hword]

/-! ## From a word to its instruction and back -/

theorem formatNNN_of_fields {op : Word} {c : BitVec 4} (hc : fieldC op = c) : formatNNN c (fieldNNN op) = op := by
  rw [← hc, formatNNN_fields]

theorem formatXKK_of_fields {op : Word} {c : BitVec 4} {kk : Byte} (hc : fieldC op = c) (hk : fieldKK op = kk) :
    formatXKK c (fieldX op) kk = op := by
  rw [← hc, ← hk, formatXKK_fields]

theorem formatXYN_of_fields {op : Word} {c n : BitVec 4} (hc : fieldC op = c) (hn : fieldN op = n) :
    formatXYN c (fieldX op) (fieldY op) n = op := by
  rw [← hc, ← hn, formatXYN_fields]

/-- R71's list for group 8 is the complement of the low nibbles that select an operation (R67). -/
theorem mem_unknown_group8_iff : ∀ n : BitVec 4, n ∈ [0x8#4, 0x9#4, 0xA#4, 0xB#4, 0xC#4, 0xD#4, 0xF#4] ↔
    n ∉ [0x0#4, 0x1#4, 0x2#4, 0x3#4, 0x4#4, 0x5#4, 0x6#4, 0x7#4, 0xE#4] := by
  decide

/-- The unknown space in the fields of the word: in each of the five groups, what selects no instruction (R67 to R71). -/
theorem isUnknownWord_iff (op : Word) : isUnknownWord op = true ↔
    (fieldC op = 0x5#4 ∧ fieldN op ∉ [0x0#4]) ∨
    (fieldC op = 0x8#4 ∧ fieldN op ∉ [0x0#4, 0x1#4, 0x2#4, 0x3#4, 0x4#4, 0x5#4, 0x6#4, 0x7#4, 0xE#4]) ∨
    (fieldC op = 0x9#4 ∧ fieldN op ∉ [0x0#4]) ∨
    (fieldC op = 0xE#4 ∧ fieldKK op ∉ [0x9E#8, 0xA1#8]) ∨
    (fieldC op = 0xF#4 ∧
      fieldKK op ∉ [0x07#8, 0x0A#8, 0x15#8, 0x18#8, 0x1E#8, 0x29#8, 0x33#8, 0x55#8, 0x65#8]) := by
  simp only [isUnknownWord, ← fieldC.eq_def, ← fieldN.eq_def, ← fieldKK.eq_def, Bool.or_eq_true, Bool.and_eq_true,
    beq_iff_eq, bne_iff_ne, Bool.not_eq_true', List.contains_eq_mem, decide_eq_true_eq, decide_eq_false_iff_not, or_assoc,
    mem_unknown_group8_iff, List.mem_singleton, ne_eq]

theorem wellFormed_sys_iff {nnn : BitVec 12} : (Instr.sys nnn).WellFormed ↔ nnn ≠ 0x0E0#12 ∧ nnn ≠ 0x0EE#12 := by
  simp [Instr.WellFormed, Instr.wellFormed]

/-- `i` is an instruction of the machine and `op` is its word. -/
def Instr.IsOf (i : Instr) (op : Word) : Prop := i.WellFormed ∧ encode i = op

/-- Group 0 (R66). -/
theorem decodeGroup0_isOf {op : Word} (hc : fieldC op = 0x0#4) : (decodeGroup0 op).IsOf op := by
  have hword := formatNNN_of_fields hc
  rw [decodeGroup0]
  split
  case h_1 hn => exact ⟨rfl, by rw [← hword, hn]; rfl⟩
  case h_2 hn => exact ⟨rfl, by rw [← hword, hn]; rfl⟩
  case h_3 hcls hret => exact ⟨wellFormed_sys_iff.2 ⟨hcls, hret⟩, hword⟩

/-- Group 5 (R68). -/
theorem decodeGroup5_isOf {op : Word} (hc : fieldC op = 0x5#4) : (decodeGroup5 op).IsOf op := by
  rw [decodeGroup5]
  split
  case h_1 hn => exact ⟨rfl, formatXYN_of_fields hc hn⟩
  case h_2 hn =>
    have hn : fieldN op ∉ [0x0#4] := by simpa using hn
    exact ⟨(isUnknownWord_iff op).2 (.inl ⟨hc, hn⟩), rfl⟩

/-- Group 8 (R67). -/
theorem decodeGroup8_isOf {op : Word} (hc : fieldC op = 0x8#4) : (decodeGroup8 op).IsOf op := by
  rw [decodeGroup8]
  split
  case h_10 =>
    have hn : fieldN op ∉ [0x0#4, 0x1#4, 0x2#4, 0x3#4, 0x4#4, 0x5#4, 0x6#4, 0x7#4, 0xE#4] := by simp_all
    exact ⟨(isUnknownWord_iff op).2 (.inr (.inl ⟨hc, hn⟩)), rfl⟩
  all_goals exact ⟨rfl, formatXYN_of_fields hc (by assumption)⟩

/-- Group 9 (R68). -/
theorem decodeGroup9_isOf {op : Word} (hc : fieldC op = 0x9#4) : (decodeGroup9 op).IsOf op := by
  rw [decodeGroup9]
  split
  case h_1 hn => exact ⟨rfl, formatXYN_of_fields hc hn⟩
  case h_2 hn =>
    have hn : fieldN op ∉ [0x0#4] := by simpa using hn
    exact ⟨(isUnknownWord_iff op).2 (.inr (.inr (.inl ⟨hc, hn⟩))), rfl⟩

/-- Group E (R69). -/
theorem decodeGroupE_isOf {op : Word} (hc : fieldC op = 0xE#4) : (decodeGroupE op).IsOf op := by
  rw [decodeGroupE]
  split
  case h_3 =>
    have hk : fieldKK op ∉ [0x9E#8, 0xA1#8] := by simp_all
    exact ⟨(isUnknownWord_iff op).2 (.inr (.inr (.inr (.inl ⟨hc, hk⟩)))), rfl⟩
  all_goals exact ⟨rfl, formatXKK_of_fields hc (by assumption)⟩

/-- Group F (R70). -/
theorem decodeGroupF_isOf {op : Word} (hc : fieldC op = 0xF#4) : (decodeGroupF op).IsOf op := by
  rw [decodeGroupF]
  split
  case h_10 =>
    have hk : fieldKK op ∉ [0x07#8, 0x0A#8, 0x15#8, 0x18#8, 0x1E#8, 0x29#8, 0x33#8, 0x55#8, 0x65#8] := by simp_all
    exact ⟨(isUnknownWord_iff op).2 (.inr (.inr (.inr (.inr ⟨hc, hk⟩)))), rfl⟩
  all_goals exact ⟨rfl, formatXKK_of_fields hc (by assumption)⟩

/-- Outside the groups 0 to E the group is F. -/
theorem eq_groupF_of_not_mem : ∀ c : BitVec 4,
    c ∉ [0x0#4, 0x1#4, 0x2#4, 0x3#4, 0x4#4, 0x5#4, 0x6#4, 0x7#4, 0x8#4, 0x9#4, 0xA#4, 0xB#4, 0xC#4, 0xD#4, 0xE#4] →
    c = 0xF#4 := by
  decide

/-- Settles O3, group by group: six groups have a lemma of their own, in the other ten the fields of the word are the operands. -/
theorem encodeOfDecode : Obligations.EncodeOfDecode := by
  intro op
  show (decodeWord op).IsOf op
  rw [decodeWord]
  split
  case h_1 hc => exact decodeGroup0_isOf hc
  case h_6 hc => exact decodeGroup5_isOf hc
  case h_9 hc => exact decodeGroup8_isOf hc
  case h_10 hc => exact decodeGroup9_isOf hc
  case h_15 hc => exact decodeGroupE_isOf hc
  case h_16 => exact decodeGroupF_isOf (eq_groupF_of_not_mem (fieldC op) (by simp_all))
  case h_2 hc | h_3 hc | h_11 hc | h_12 hc => exact ⟨rfl, formatNNN_of_fields hc⟩
  case h_4 hc | h_5 hc | h_7 hc | h_8 hc | h_13 hc => exact ⟨rfl, formatXKK_of_fields hc rfl⟩
  case h_14 hc => exact ⟨rfl, formatXYN_of_fields hc rfl⟩

/-! ## The unknown space (R71) -/

/-- `UNKNOWN` is the mnemonic of no other row. -/
theorem Instr.eq_unknown_of_mnemonic {i : Instr} (h : i.mnemonic = "UNKNOWN") : ∃ w, i = .unknown w := by
  cases i with
  | unknown w => exact ⟨w, rfl⟩
  | _ => exact absurd h (by simp [Instr.mnemonic])

/-- Settles O5 by the round trip: an `UNKNOWN` decoded from `op` is well formed and holds `op`, and one with a word of the list is well
formed, so that its word decodes to it. -/
theorem unknownSpaceIsAsListed : Obligations.UnknownSpaceIsAsListed := by
  intro op
  constructor
  · intro h
    obtain ⟨w, hw⟩ := Instr.eq_unknown_of_mnemonic h
    obtain ⟨hwf, hword⟩ := encodeOfDecode op
    rw [hw] at hwf hword
    obtain rfl : w = op := hword
    exact hwf
  · intro h
    have hdec : decodeWord op = .unknown op := decodeWord_encode (i := .unknown op) h
    rw [hdec]
    rfl

/-! ## The opcode map (R64, R65) -/

/-- Where `q`'s mask and `mask` both look, `q`'s pattern and `pattern` agree. -/
def OpcodeRow.compatible (mask pattern : Word) (q : OpcodeRow) : Bool := pattern &&& q.mask == q.pattern &&& mask

/-- A row is compatible with every pattern that some word it accepts has. -/
theorem OpcodeRow.compatible_of_accepts {op mask pattern : Word} {q : OpcodeRow} (hop : op &&& mask = pattern)
    (hq : q.accepts op = true) : q.compatible mask pattern = true := by
  have hq : op &&& q.mask = q.pattern := beq_iff_eq.1 hq
  rw [OpcodeRow.compatible, beq_iff_eq, ← hop, ← hq, BitVec.and_assoc, BitVec.and_comm mask, BitVec.and_assoc]

/-- Of the rows compatible with its own pattern, the row of the three parts is the map's first. -/
abbrev leadsMap (mask pattern : Word) (name : String) : Prop :=
  opcodeRows.find? (OpcodeRow.compatible mask pattern) = some ⟨mask, pattern, name⟩

/-- Such a row is the first to match every word that it matches: the rows before it are incompatible with it. -/
theorem tableMnemonic_of_leadsMap {op mask pattern : Word} {name : String} (hlead : leadsMap mask pattern name)
    (hop : op &&& mask = pattern) : tableMnemonic op = some name := by
  obtain ⟨-, before, after, hrows, hbefore⟩ := List.find?_eq_some_iff_append.1 hlead
  have hfind : opcodeRows.find? (OpcodeRow.accepts op) = some ⟨mask, pattern, name⟩ := by
    refine List.find?_eq_some_iff_append.2 ⟨beq_iff_eq.2 hop, before, after, hrows, fun q hq => ?_⟩
    by_contra hq'
    have hcompatible := OpcodeRow.compatible_of_accepts hop (by simpa using hq')
    simpa [hcompatible] using hbefore q hq
  rw [tableMnemonic, hfind]
  rfl

theorem tableMnemonic_formatNNN {c : BitVec 4} {nnn : BitVec 12} {name : String}
    (hlead : leadsMap 0xF000#16 (formatNNN c 0#12) name) : tableMnemonic (formatNNN c nnn) = some name :=
  tableMnemonic_of_leadsMap hlead ((and_mask_c _ c).2 (fieldC_formatNNN c nnn))

theorem tableMnemonic_formatXKK {c : BitVec 4} {x : Reg} {kk : Byte} {name : String}
    (hlead : leadsMap 0xF000#16 (formatNNN c 0#12) name) : tableMnemonic (formatXKK c x kk) = some name :=
  tableMnemonic_of_leadsMap hlead ((and_mask_c _ c).2 (fieldC_formatXKK c x kk))

theorem tableMnemonic_formatXYN {c : BitVec 4} {x y : Reg} {n : BitVec 4} {name : String}
    (hlead : leadsMap 0xF000#16 (formatNNN c 0#12) name) : tableMnemonic (formatXYN c x y n) = some name :=
  tableMnemonic_of_leadsMap hlead ((and_mask_c _ c).2 (fieldC_formatXYN c x y n))

/-- The format `XYS`: the row fixes `n` (R62). -/
theorem tableMnemonic_formatXYS {c : BitVec 4} {x y : Reg} {n : BitVec 4} {name : String}
    (hlead : leadsMap 0xF00F#16 (formatXYN c 0 0 n) name) : tableMnemonic (formatXYN c x y n) = some name :=
  tableMnemonic_of_leadsMap hlead ((and_mask_cn _ c n).2 ⟨fieldC_formatXYN c x y n, fieldN_formatXYN c x y n⟩)

/-- The format `XSS`: the row fixes `kk` (R62). -/
theorem tableMnemonic_formatXSS {c : BitVec 4} {x : Reg} {kk : Byte} {name : String}
    (hlead : leadsMap 0xF0FF#16 (formatXKK c 0 kk) name) : tableMnemonic (formatXKK c x kk) = some name :=
  tableMnemonic_of_leadsMap hlead ((and_mask_ckk _ c kk).2 ⟨fieldC_formatXKK c x kk, fieldKK_formatXKK c x kk⟩)

/-! ## The last row, and `SYS` behind `CLS` and `RET` -/

/-- The last row accepts every word (R65). -/
theorem lastRow_accepts (op : Word) : (OpcodeRow.mk 0x0000#16 0x0000#16 "UNKNOWN").accepts op = true := by
  simp [OpcodeRow.accepts]

theorem fieldC_and (a b : Word) : fieldC (a &&& b) = fieldC a &&& fieldC b := BitVec.extractLsb'_and
theorem fieldN_and (a b : Word) : fieldN (a &&& b) = fieldN a &&& fieldN b := BitVec.extractLsb'_and
theorem fieldKK_and (a b : Word) : fieldKK (a &&& b) = fieldKK a &&& fieldKK b := BitVec.extractLsb'_and

/-- Every row before the last that can accept a word of group `c` fixes the whole of `field`, to one of `codes`. -/
abbrev groupSelectsBy {w : Nat} (field : Word → BitVec w) (c : BitVec 4) (codes : List (BitVec w)) : Prop :=
  ∀ q ∈ opcodeRows.dropLast, c &&& fieldC q.mask = fieldC q.pattern →
    field q.mask = BitVec.allOnes w ∧ field q.pattern ∈ codes

/-- A word whose field holds none of its group's codes gets past every row but the last. -/
theorem tableMnemonic_of_not_selected {w : Nat} {field : Word → BitVec w} {op : Word} {c : BitVec 4}
    {codes : List (BitVec w)} (hand : ∀ a b, field (a &&& b) = field a &&& field b)
    (hgroup : groupSelectsBy field c codes) (hc : fieldC op = c) (hcode : field op ∉ codes) :
    tableMnemonic op = some "UNKNOWN" := by
  have hbefore : opcodeRows.dropLast.find? (OpcodeRow.accepts op) = none := by
    refine List.find?_eq_none.2 fun q hq haccepts => hcode ?_
    have hop : op &&& q.mask = q.pattern := beq_iff_eq.1 haccepts
    obtain ⟨hmask, hmem⟩ := hgroup q hq (by rw [← hc, ← fieldC_and, hop])
    have hfield : field op = field q.pattern := by rw [← hop, hand, hmask, BitVec.and_allOnes]
    rwa [hfield]
  have hrows : opcodeRows = opcodeRows.dropLast ++ [⟨0x0000#16, 0x0000#16, "UNKNOWN"⟩] := rfl
  rw [tableMnemonic, hrows, List.find?_append, hbefore, List.find?_cons_of_pos (lastRow_accepts op)]
  rfl

/-- A word of the unknown space has no row but the last: its group is selected by `n` or by `kk`. -/
theorem tableMnemonic_of_isUnknownWord {op : Word} (h : isUnknownWord op = true) : tableMnemonic op = some "UNKNOWN" := by
  rcases (isUnknownWord_iff op).1 h with ⟨hc, hn⟩ | ⟨hc, hn⟩ | ⟨hc, hn⟩ | ⟨hc, hk⟩ | ⟨hc, hk⟩
  · exact tableMnemonic_of_not_selected fieldN_and (by decide) hc hn
  · exact tableMnemonic_of_not_selected fieldN_and (by decide) hc hn
  · exact tableMnemonic_of_not_selected fieldN_and (by decide) hc hn
  · exact tableMnemonic_of_not_selected fieldKK_and (by decide) hc hk
  · exact tableMnemonic_of_not_selected fieldKK_and (by decide) hc hk

/-- A row with a full mask accepts its pattern alone. -/
theorem OpcodeRow.accepts_full_mask {op w : Word} {name : String} :
    (OpcodeRow.mk 0xFFFF#16 w name).accepts op = true ↔ op = w := by
  have hall : op &&& 0xFFFF#16 = op := BitVec.and_allOnes
  simp [OpcodeRow.accepts, hall]

/-- A `SYS` whose word is neither that of `CLS` nor of `RET` gets past their rows to its own (R66). -/
theorem tableMnemonic_sys {nnn : BitVec 12} (h : (Instr.sys nnn).WellFormed) :
    tableMnemonic (encode (.sys nnn)) = some "SYS_nnn" := by
  obtain ⟨hcls, hret⟩ := wellFormed_sys_iff.1 h
  have hword : ∀ w, nnn ≠ fieldNNN w → formatNNN 0x0#4 nnn ≠ w := by
    rintro w hne rfl
    exact hne (fieldNNN_formatNNN 0x0#4 nnn).symm
  have hsys : (OpcodeRow.mk 0xF000#16 0x0000#16 "SYS_nnn").accepts (formatNNN 0x0#4 nnn) = true :=
    beq_iff_eq.2 ((and_mask_c _ 0x0#4).2 (fieldC_formatNNN 0x0#4 nnn))
  have hfind : opcodeRows.find? (OpcodeRow.accepts (formatNNN 0x0#4 nnn)) = some ⟨0xF000#16, 0x0000#16, "SYS_nnn"⟩ := by
    show List.find? _ (_ :: _ :: _ :: _) = _
    rw [List.find?_cons_of_neg (mt OpcodeRow.accepts_full_mask.1 (hword 0x00E0#16 hcls)),
      List.find?_cons_of_neg (mt OpcodeRow.accepts_full_mask.1 (hword 0x00EE#16 hret)), List.find?_cons_of_pos hsys]
  exact congrArg (Option.map OpcodeRow.mnemonic) hfind

/-! ## The opcode map and the decoder -/

/-- The map gives the word of a well-formed instruction the instruction's mnemonic. -/
theorem tableMnemonic_encode {i : Instr} (h : i.WellFormed) : tableMnemonic (encode i) = some i.mnemonic := by
  cases i with
  | cls | ret => rfl
  | sys nnn => exact tableMnemonic_sys h
  | jp | call | ldI | jpV0 => exact tableMnemonic_formatNNN rfl
  | seImm | sneImm | ldImm | addImm | rnd => exact tableMnemonic_formatXKK rfl
  | drw => exact tableMnemonic_formatXYN rfl
  | seReg | ldReg | orReg | andReg | xorReg | addReg | subReg | shr | subnReg | shl | sneReg =>
    exact tableMnemonic_formatXYS rfl
  | skp | sknp | ldVxDT | ldVxK | ldDTVx | ldSTVx | addIVx | ldFVx | ldBVx | ldMemVx | ldVxMem =>
    exact tableMnemonic_formatXSS rfl
  | unknown op => exact tableMnemonic_of_isUnknownWord h

/-- Settles O4 by the round trip: the word is that of the well-formed instruction it decodes to, whose mnemonic the map gives. -/
theorem decoderFollowsOpcodeMap : Obligations.DecoderFollowsOpcodeMap := by
  intro op
  obtain ⟨hwf, hword⟩ := encodeOfDecode op
  have hmap := tableMnemonic_encode hwf
  rw [hword] at hmap
  exact ⟨hmap, _, rfl, lastRow_accepts op⟩

end Sys2Proof
end

section
/-! Control flow (R80 to R85, R150): the value of a jump's target, the return address a `CALL` pushes and a `RET` pops, and the two
instructions that do nothing. A target is not checked when `PC` is written; the next fetch checks it (D16). -/

namespace Sys2Proof.Machine

/-! ## The value of an address operand (R63) -/

/-- An address immediate keeps its value (R63). -/
@[simp] theorem toNat_addrImm (nnn : BitVec 12) : (addrImm nnn).toNat = nnn.toNat :=
  BitVec.toNat_setWidth_of_le (by decide)

/-- A register read at 16 bits keeps its value (R84). -/
@[simp] theorem State.toNat_regWide (s : State) (x : Reg) : (s.regWide x).toNat = (s.reg x).toNat :=
  BitVec.toNat_setWidth_of_le (by decide)

/-- The sum of an address and a register does not wrap: at most 0xFFF + 0xFF (R84). -/
theorem State.toNat_addrImm_add_regWide (s : State) (nnn : BitVec 12) (x : Reg) :
    (addrImm nnn + s.regWide x).toNat = nnn.toNat + (s.reg x).toNat := by
  have hn := nnn.isLt
  have hb := (s.reg x).isLt
  rw [BitVec.toNat_add_of_lt, toNat_addrImm, State.toNat_regWide]
  rw [toNat_addrImm, State.toNat_regWide]
  omega

/-- The word of the `NNN` format is the group above twelve zeros, with the address in those (R62). -/
theorem formatNNN_zero_or_addrImm (c : BitVec 4) (nnn : BitVec 12) : formatNNN c 0#12 ||| addrImm nnn = formatNNN c nnn := by
  refine BitVec.eq_of_getLsbD_eq fun i hi => ?_
  rw [BitVec.getLsbD_or, getLsbD_formatNNN, getLsbD_formatNNN, addrImm, BitVec.getLsbD_setWidth]
  by_cases h : i < 12
  · simp [h, hi]
  · simp [h, BitVec.getLsbD_of_ge nnn i (Nat.not_lt.1 h)]

/-! ## The pop of a return address (R81) -/

/-- `RET` with `a` last on the stack resumes at `a`. -/
theorem execRet_of_stack_append {s : State} {l : List Word} {a : Word} (h : s.stack = l ++ [a]) :
    execRet s = .next { s with pc := a, stack := l } := by
  have hne : s.stack ≠ [] := by simp [h]
  simp [execRet_ok s hne, h]

/-! ## The obligations -/

/-- Settles O33: the stack ends in the address popped. -/
theorem returnPopsStack : Obligations.ReturnPopsStack :=
  fun _ _ _ h => execRet_of_stack_append h

/-- Settles O35: below depth 16 `CALL` raises nothing (R161), and its target keeps its value. -/
theorem callPushesAndJumps : Obligations.CallPushesAndJumps := by
  intro s nnn hlen
  exact ⟨_, execCall_ok nnn s hlen, rfl, toNat_addrImm nnn, rfl⟩

/-- Settles O36: the `CALL` left its advanced `PC` as the last entry, which is the one the `RET` pops, whatever ran in between. -/
theorem callThenReturnResumes : Obligations.CallThenReturnResumes := by
  intro s t w nnn hlen hcall hw
  obtain rfl := next_inj ((execCall_ok nnn s hlen).symm.trans hcall)
  exact ⟨_, execRet_of_stack_append hw, rfl, rfl⟩

/-- Settles O32: neither meaning reads or writes the state (D29). -/
theorem noOpsChangeNothing : Obligations.NoOpsChangeNothing :=
  fun _ _ _ => ⟨rfl, rfl⟩

/-- Settles O34: the word is that of `JP nnn`, the target keeps its value, and from 0xFFE on no instruction can be fetched there. -/
theorem jumpSetsPC : Obligations.JumpSetsPC := by
  intro s nnn
  have hword : 0x1000#16 ||| nnn.setWidth 16 = encode (.jp nnn) := formatNNN_zero_or_addrImm 0x1#4 nnn
  refine ⟨?_, { s with pc := addrImm nnn }, rfl, toNat_addrImm nnn, rfl, fun hnnn => State.fetch_error _ ?_⟩
  · rw [hword]
    exact decodeWord_encode rfl
  · rwa [toNat_addrImm]

/-- Settles O37: the sum is below 65536, so the 16-bit addition is the addition of natural numbers (D3). -/
theorem jumpV0AddsUnmasked : Obligations.JumpV0AddsUnmasked := by
  intro s nnn
  exact ⟨{ s with pc := addrImm nnn + s.regWide 0 }, rfl, s.toNat_addrImm_add_regWide nnn 0, rfl⟩

end Sys2Proof.Machine
end

section
/-! Conditional skips (R90 to R96): a skip with its condition as a proposition, and the key that `SKP` and `SKNP` test. -/

namespace Sys2Proof.Machine

/-- The two outcomes of a skip, told apart by what its condition says (R96). -/
theorem State.skipIf_eq_ite (s : State) {c : Bool} {p : Prop} [Decidable p] (h : c = true ↔ p) :
    s.skipIf c = if p then { s with pc := s.pc + 2 } else s :=
  if_congr h rfl rfl

/-- `SE Vx, kk` skips exactly when `V[x]` is `kk` (R90). -/
theorem exec_seImm_eq_ite (s : State) (x : Reg) (kk : Byte) :
    exec (.seImm x kk) s = .next (if s.reg x = kk then { s with pc := s.pc + 2 } else s) :=
  congrArg Host.Outcome.next (s.skipIf_eq_ite beq_iff_eq)

/-! ## The key of the low four bits (R94) -/

/-- The low four bits of `V[x]` are its value modulo 16 (D11). -/
theorem State.keyIndex_eq_mod (s : State) (x : Reg) : s.keyIndex x = (s.reg x).toNat % 16 := by
  rw [State.keyIndex, BitVec.extractLsb'_toNat, Nat.shiftRight_zero]

/-- The key tested is the one of this cycle's snapshot (R20). -/
theorem State.keyPressed_eq_getLsbD (s : State) (x : Reg) :
    s.keyPressed x = s.now.keys.getLsbD ((s.reg x).toNat % 16) := by
  rw [State.keyPressed, State.keysNow, State.keyIndex_eq_mod]

/-! ## The obligations -/

/-- Settles O38: the word is that of `SE Vx, kk`, and each side of the condition selects its outcome. -/
theorem skipEqualImmediate : Obligations.SkipEqualImmediate := by
  intro s x kk
  refine ⟨decodeWord_encode (i := .seImm x kk) rfl, fun heq => ?_, fun hne => ?_⟩
  · rw [exec_seImm_eq_ite, if_pos heq]
  · rw [exec_seImm_eq_ite, if_neg hne]

/-- Settles O39: the comparisons of bytes decide equality and its negation. -/
theorem otherRegisterSkips : Obligations.OtherRegisterSkips := by
  intro s x y kk
  refine ⟨?sneImm, ?seReg, ?sneReg⟩
  case sneImm => exact congrArg Host.Outcome.next (s.skipIf_eq_ite bne_iff_ne)
  case seReg => exact congrArg Host.Outcome.next (s.skipIf_eq_ite beq_iff_eq)
  case sneReg => exact congrArg Host.Outcome.next (s.skipIf_eq_ite bne_iff_ne)

/-- Settles O40: both test the key of `V[x]` modulo 16 in `now.keys`, `SKNP` for not being pressed. -/
theorem keySkipsTestLowNibble : Obligations.KeySkipsTestLowNibble := by
  intro s x
  rw [← s.keyPressed_eq_getLsbD x]
  constructor
  · exact congrArg Host.Outcome.next (s.skipIf_eq_ite Iff.rfl)
  · exact congrArg Host.Outcome.next (s.skipIf_eq_ite (.of_eq (Bool.not_eq_true' _)))

end Sys2Proof.Machine
end

section
/-! Register-immediate instructions (R100, R101): each meaning is one register write, whose value and frame are the register write's law. -/

namespace Sys2Proof.Machine

/-- `LD Vx, kk` is the write of `kk` to `V[x]` (R100). -/
theorem exec_ldImm (s : State) (x : Reg) (kk : Byte) : exec (.ldImm x kk) s = .next (s.setReg x kk) := rfl

/-- `ADD Vx, kk` is the write of the 8-bit sum to `V[x]`, with no write of `VF` as a flag (R101, D8). -/
theorem exec_addImm (s : State) (x : Reg) (kk : Byte) : exec (.addImm x kk) s = .next (s.setReg x (s.reg x + kk)) := rfl

/-- Settles O41: both are one register write, which O8 describes, and the 8-bit sum is the sum modulo 256. -/
theorem registerImmediateResults : Obligations.RegisterImmediateResults := by
  intro s x kk
  constructor
  · exact ⟨_, exec_ldImm s x kk, registerWriteChangesOneRegister s x kk⟩
  · have hsum : (s.reg x + kk).toNat = ((s.reg x).toNat + kk.toNat) % 256 := BitVec.toNat_add _ _
    exact ⟨_, _, exec_addImm s x kk, registerWriteChangesOneRegister s x _, hsum⟩

end Sys2Proof.Machine
end

section
/-! Register-register instructions (R105 to R116): what `VF` receives from each flag, as a number, and each meaning as one register write or
as one write of the flag and then of the destination. -/

namespace Sys2Proof.Machine

/-! ## The value of a flag (R114, R115) -/

/-- A flag is 1 or 0 as its condition holds or not (R114). -/
@[simp] theorem toNat_flagByte (b : Bool) : (flagByte b).toNat = b.toNat := by
  cases b <;> rfl

/-- The carry is 1 exactly when the sum exceeds 255 (R109). -/
theorem toNat_carryFlag (a b : Byte) : (carryFlag a b).toNat = if a.toNat + b.toNat > 255 then 1 else 0 := by
  rw [carryFlag, toNat_flagByte, Bool.toNat, Bool.cond_decide]

/-- No borrow is 0 exactly when the minuend is below the subtrahend (R110, R112). -/
theorem toNat_noBorrowFlag (a b : Byte) : (noBorrowFlag a b).toNat = if a.toNat < b.toNat then 0 else 1 := by
  rw [noBorrowFlag, toNat_flagByte, Bool.toNat, Bool.cond_not, Bool.cond_decide]

/-- The bit shifted out to the right is the remainder of the halving (R111). -/
theorem toNat_shiftedOutRight (a : Byte) : (shiftedOutRight a).toNat = a.toNat % 2 := by
  rw [shiftedOutRight, toNat_flagByte, BitVec.getLsbD, Nat.toNat_testBit, pow_zero, Nat.div_one]

/-- The bit shifted out to the left is the byte's top bit, which weighs 128 (R113). -/
theorem toNat_shiftedOutLeft (a : Byte) : (shiftedOutLeft a).toNat = a.toNat / 128 := by
  have ha := a.isLt
  rw [shiftedOutLeft, toNat_flagByte, BitVec.getLsbD, Nat.toNat_testBit]
  omega

/-! ## The value of a result (R110 to R113) -/

/-- The 8-bit difference is the difference of natural numbers modulo 256 (R110, R112). -/
theorem toNat_byte_sub (a b : Byte) : (a - b).toNat = (a.toNat + 256 - b.toNat) % 256 := by
  have hb := b.isLt
  rw [BitVec.toNat_sub]
  omega

/-- A byte shifted right by one is halved (R111). -/
theorem toNat_byte_shiftRight_one (a : Byte) : (a >>> 1).toNat = a.toNat / 2 := by
  rw [BitVec.toNat_ushiftRight, Nat.shiftRight_eq_div_pow, pow_one]

/-- A byte shifted left by one is doubled modulo 256 (R113). -/
theorem toNat_byte_shiftLeft_one (a : Byte) : (a <<< 1).toNat = 2 * a.toNat % 256 := by
  rw [BitVec.toNat_shiftLeft, Nat.shiftLeft_eq, pow_one, Nat.mul_comm]

/-! ## What the meanings write -/

/-- The write of a flag and then of the destination, as a whole (R114, R116). -/
theorem State.flagAndReg_setFlagThen (s : State) (f : Byte) (x : Reg) (b : Byte) :
    s.flagAndReg (s.setFlagThen f x b) x f b :=
  ⟨s.reg_setFlagThen_dest f x b, s.reg_setFlagThen_flag f b, fun _ => s.reg_setFlagThen_ne f b, s.setFlagThen_with_v f x b⟩

/-- `LD Vx, Vy` is the write of `V[y]` to `V[x]` (R105). -/
theorem exec_ldReg (s : State) (x y : Reg) : exec (.ldReg x y) s = .next (s.setReg x (s.reg y)) := rfl

/-- `OR Vx, Vy` is the write of the bitwise or to `V[x]` (R106). -/
theorem exec_orReg (s : State) (x y : Reg) : exec (.orReg x y) s = .next (s.setReg x (s.reg x ||| s.reg y)) := rfl

/-- `AND Vx, Vy` is the write of the bitwise and to `V[x]` (R107). -/
theorem exec_andReg (s : State) (x y : Reg) : exec (.andReg x y) s = .next (s.setReg x (s.reg x &&& s.reg y)) := rfl

/-- `XOR Vx, Vy` is the write of the bitwise exclusive or to `V[x]` (R108). -/
theorem exec_xorReg (s : State) (x y : Reg) : exec (.xorReg x y) s = .next (s.setReg x (s.reg x ^^^ s.reg y)) := rfl

/-- `ADD Vx, Vy` writes the carry and then the 8-bit sum (R109). -/
theorem exec_addReg (s : State) (x y : Reg) :
    exec (.addReg x y) s = .next (s.setFlagThen (carryFlag (s.reg x) (s.reg y)) x (s.reg x + s.reg y)) := rfl

/-- `SUB Vx, Vy` writes no-borrow and then the difference `V[x] - V[y]` (R110). -/
theorem exec_subReg (s : State) (x y : Reg) :
    exec (.subReg x y) s = .next (s.setFlagThen (noBorrowFlag (s.reg x) (s.reg y)) x (s.reg x - s.reg y)) := rfl

/-- `SUBN Vx, Vy` writes no-borrow and then the difference `V[y] - V[x]` (R112). -/
theorem exec_subnReg (s : State) (x y : Reg) :
    exec (.subnReg x y) s = .next (s.setFlagThen (noBorrowFlag (s.reg y) (s.reg x)) x (s.reg y - s.reg x)) := rfl

/-- `SHR Vx` reads its operand after the flag is written: with `x = 15` it shifts the flag (R111, D7). -/
theorem exec_shr (s : State) (x y : Reg) :
    exec (.shr x y) s = .next (s.setFlagThen (shiftedOutRight (s.reg x)) x
      ((if x = VF then shiftedOutRight (s.reg x) else s.reg x) >>> 1)) := by
  rw [← State.reg_setReg]
  rfl

/-- `SHL Vx` reads its operand after the flag is written: with `x = 15` it shifts the flag (R113, D7). -/
theorem exec_shl (s : State) (x y : Reg) :
    exec (.shl x y) s = .next (s.setFlagThen (shiftedOutLeft (s.reg x)) x
      ((if x = VF then shiftedOutLeft (s.reg x) else s.reg x) <<< 1)) := by
  rw [← State.reg_setReg]
  rfl

/-! ## The obligations -/

/-- Settles O42: each of the four is one register write, which O8 describes. -/
theorem moveAndLogicResults : Obligations.MoveAndLogicResults := by
  intro s x y
  refine ⟨?ldReg, ?orReg, ?andReg, ?xorReg⟩
  case ldReg => exact ⟨_, exec_ldReg s x y, registerWriteChangesOneRegister s x _⟩
  case orReg => exact ⟨_, exec_orReg s x y, registerWriteChangesOneRegister s x _⟩
  case andReg => exact ⟨_, exec_andReg s x y, registerWriteChangesOneRegister s x _⟩
  case xorReg => exact ⟨_, exec_xorReg s x y, registerWriteChangesOneRegister s x _⟩

/-- Settles O43: the 8-bit sum is the sum modulo 256, and the flag is the carry of the same two bytes. -/
theorem addSetsCarry : Obligations.AddSetsCarry := by
  intro s x y
  exact ⟨_, _, _, exec_addReg s x y, s.flagAndReg_setFlagThen _ x _, BitVec.toNat_add _ _, toNat_carryFlag _ _⟩

/-- Settles O44: `SUBN` is `SUB` with its operands exchanged, in the difference and in the flag. -/
theorem subtractSetsNoBorrow : Obligations.SubtractSetsNoBorrow := by
  intro s x y
  constructor
  · exact ⟨_, _, _, exec_subReg s x y, s.flagAndReg_setFlagThen _ x _, toNat_byte_sub _ _, toNat_noBorrowFlag _ _⟩
  · exact ⟨_, _, _, exec_subnReg s x y, s.flagAndReg_setFlagThen _ x _, toNat_byte_sub _ _, toNat_noBorrowFlag _ _⟩

/-- Settles O45: with `x = 15` the operand is the flag, a single bit, so halving it gives 0 and doubling it does not wrap. -/
theorem shiftsInPlace : Obligations.ShiftsInPlace := by
  intro s x y
  have hbyte := (s.reg x).isLt
  constructor
  · refine ⟨_, _, _, exec_shr s x y, s.flagAndReg_setFlagThen _ x _, toNat_shiftedOutRight _, ?_⟩
    rw [toNat_byte_shiftRight_one]
    split
    · rw [toNat_shiftedOutRight]
      omega
    · rfl
  · refine ⟨_, _, _, exec_shl s x y, s.flagAndReg_setFlagThen _ x _, toNat_shiftedOutLeft _, ?_⟩
    rw [toNat_byte_shiftLeft_one]
    split
    · rw [toNat_shiftedOutLeft]
      omega
    · rfl

end Sys2Proof.Machine
end

section
/-! Index and memory instructions (R120 to R126): the three values written to `I`, and a store and a load of a block at `I` byte by byte. -/

namespace Sys2Proof.Machine

/-! ## The index register (R120 to R122) -/

/-- `LD I, nnn` writes the immediate to `I` alone (R120). -/
theorem exec_ldI (s : State) (nnn : BitVec 12) : exec (.ldI nnn) s = .next { s with i := addrImm nnn } := rfl

/-- `ADD I, Vx` writes the 16-bit sum to `I` alone, no flag (R121, D9). -/
theorem exec_addIVx (s : State) (x : Reg) : exec (.addIVx x) s = .next { s with i := s.i + s.regWide x } := rfl

/-- `LD F, Vx` writes the product with the glyph size to `I` alone (R122, D10). -/
theorem exec_ldFVx (s : State) (x : Reg) : exec (.ldFVx x) s = .next { s with i := s.regWide x * 5#16 } := rfl

/-- Five times a whole byte fits in `I`: at most 1275 (R122, D10). -/
theorem State.toNat_regWide_mul_five (s : State) (x : Reg) : (s.regWide x * 5#16).toNat = (s.reg x).toNat * 5 := by
  have hfit : (s.regWide x).toNat * (5#16).toNat < 2 ^ 16 := by
    have hbyte := (s.reg x).isLt
    rw [State.toNat_regWide, BitVec.toNat_ofNat]
    omega
  rw [BitVec.toNat_mul_of_lt hfit, State.toNat_regWide, BitVec.toNat_ofNat]

/-! ## The decimal digits of a byte (R123) -/

@[simp] theorem length_bcdDigits (b : Byte) : (bcdDigits b).length = 3 := rfl

/-- The digits as numbers: each is below 256, so the byte that holds it keeps it. -/
theorem toNat_getElem_bcdDigits (b : Byte) :
    ((bcdDigits b)[0]'(by simp)).toNat = b.toNat / 100 ∧ ((bcdDigits b)[1]'(by simp)).toNat = b.toNat / 10 % 10 ∧
      ((bcdDigits b)[2]'(by simp)).toNat = b.toNat % 10 := by
  have hb := b.isLt
  refine ⟨?hundreds, ?tens, ?units⟩
  case hundreds => exact Nat.mod_eq_of_lt (a := b.toNat / 100) (by omega)
  case tens => exact Nat.mod_eq_of_lt (a := b.toNat / 10 % 10) (by omega)
  case units => exact Nat.mod_eq_of_lt (a := b.toNat % 10) (by omega)

/-! ## The block load (R125) -/

/-- After `LD Vx, [I]` inside memory each loaded register `V[k]` is the byte at `I + k`. -/
theorem exec_ldVxMem_reg_le {s t : State} {x k : Reg} (hin : s.i.toNat + x.val < 4096)
    (h : exec (.ldVxMem x) s = .next t) (hk : k ≤ x) : t.reg k = s.mem.read (s.i.toNat + k.val) := by
  obtain rfl := next_inj ((execLdVxMem_ok x s hin).symm.trans h)
  have hlen : k.val < x.val + 1 := Nat.lt_succ_of_le hk
  rw [State.reg_loadRegs]
  simp [hlen]

/-! ## The obligations -/

/-- Settles O50: the immediate keeps its value, the 16-bit sum wraps, and the product cannot. -/
theorem indexRegisterResults : Obligations.IndexRegisterResults := by
  intro s x nnn
  refine ⟨?ldI, ?addIVx, ?ldFVx⟩
  case ldI => exact ⟨_, exec_ldI s nnn, toNat_addrImm nnn, rfl⟩
  case addIVx =>
    have hsum : (s.i + s.regWide x).toNat = (s.i.toNat + (s.reg x).toNat) % 65536 := by
      rw [BitVec.toNat_add, State.toNat_regWide]
    exact ⟨_, exec_addIVx s x, hsum, rfl⟩
  case ldFVx => exact ⟨_, exec_ldFVx s x, s.toNat_regWide_mul_five x, rfl⟩

/-- Settles O51: the three bytes stored at `I` are the digits, and the store leaves every other address. -/
theorem bcdStoreDigits : Obligations.BcdStoreDigits := by
  intro s x hm hin
  obtain ⟨m, hstore, -, hread, hout⟩ := s.storeAtI_ok (bcdDigits (s.reg x)) hm (Nat.succ_le_of_lt hin)
  have hexec : exec (.ldBVx x) s = .next { s with mem := m } := congrArg (s.commit (.ldBVx x)) hstore
  obtain ⟨hhundreds, htens, hunits⟩ := toNat_getElem_bcdDigits (s.reg x)
  refine ⟨_, hexec, ?hundreds, ?tens, ?units, fun a ha => hout a (ha.imp_right Nat.succ_le_of_lt), rfl⟩
  case hundreds => exact (congrArg BitVec.toNat (hread 0 _)).trans hhundreds
  case tens => exact (congrArg BitVec.toNat (hread 1 _)).trans htens
  case units => exact (congrArg BitVec.toNat (hread 2 _)).trans hunits

/-- Settles O52: a block store at `I` of the registers up to `V[x]`, whose length is `x + 1`. -/
theorem blockStoreWrites : Obligations.BlockStoreWrites := by
  intro s x hm hin
  have hlen := s.length_regsUpTo x
  obtain ⟨m, hstore, -, -, hout⟩ := s.storeAtI_ok (s.regsUpTo x) hm (by omega)
  have hexec : exec (.ldMemVx x) s = .next { s with mem := m } := congrArg (s.commit (.ldMemVx x)) hstore
  exact ⟨_, hexec, fun _ => exec_ldMemVx_read hm hin hexec, fun a ha => hout a (by omega), rfl⟩

/-- Settles O53: a block load writes the registers up to `V[x]` and no other piece of state. -/
theorem blockLoadReads : Obligations.BlockLoadReads := by
  intro s x hin
  have hexec : exec (.ldVxMem x) s = .next _ := execLdVxMem_ok x s hin
  have hfatal := fatalKind_ldVxMem_eq_none.2 hin
  exact ⟨_, hexec, fun _ => exec_ldVxMem_reg_le hin hexec, fun _ => exec_ldVxMem_reg_above hfatal hexec, State.loadRegs_with_v _ _⟩

/-- Settles O54: the load reads at the same addresses the bytes that the store left there. -/
theorem blockStoreThenLoad : Obligations.BlockStoreThenLoad := by
  intro s t w x hm hin hstore hmem hi
  obtain ⟨u, hload, hle, habove, -⟩ := blockLoadReads w x (by rwa [hi])
  refine ⟨u, hload, fun k hk => ?_, habove⟩
  rw [hle k hk, hmem, hi]
  exact exec_ldMemVx_read hm hin hstore hk

end Sys2Proof.Machine
end

section
/-! Display instructions (R130 to R133): `CLS`, one `DRW` cell by cell, the same `DRW` twice, and that nothing else writes the framebuffer. -/

namespace Sys2Proof.Machine

/-! ## The operands of a sprite (R131) -/

/-- The start column is the register modulo the 64 columns. -/
theorem State.drawX_eq_mod (s : State) (x : Reg) : s.drawX x = (s.reg x).toNat % 64 :=
  (BitVec.toNat_and (s.reg x) 63).trans (Nat.and_two_pow_sub_one_eq_mod _ 6)

/-- The start row is the register modulo the 32 rows. -/
theorem State.drawY_eq_mod (s : State) (y : Reg) : s.drawY y = (s.reg y).toNat % 32 :=
  (BitVec.toNat_and (s.reg y) 31).trans (Nat.and_two_pow_sub_one_eq_mod _ 5)

/-- The cell of a sprite bit by R132's index expression. -/
theorem State.cellIndex_draw (s : State) (x y : Reg) (row col : Nat) :
    cellIndex (s.drawX x) (s.drawY y) row col =
      ((s.reg y).toNat % 32 + row) % 32 * 64 + ((s.reg x).toNat % 64 + col) % 64 := by
  rw [s.drawX_eq_mod, s.drawY_eq_mod, cellIndex]

/-- The cells that `DRW Vx, Vy, n` draws, with their bits. -/
def State.drawList (s : State) (x y : Reg) (n : BitVec 4) : List (Nat × Bool) :=
  spriteCells s.mem s.i.toNat (s.drawX x) (s.drawY y) 0 n.toNat

/-- One `DRW` meets each cell at most once (R131). -/
theorem State.pairwise_drawList (s : State) (x y : Reg) (n : BitVec 4) :
    (s.drawList x y n).Pairwise fun p q => p.1 ≠ q.1 :=
  pairwise_spriteCells _ _ _ _ _ _ (by have := n.isLt; omega)

/-- Every cell that `DRW` draws is a cell of the framebuffer (R132). -/
theorem State.lt_of_mem_drawList {s : State} {x y : Reg} {n : BitVec 4} : ∀ p ∈ s.drawList x y n, p.1 < 2048 := by
  intro p hp
  obtain ⟨r, -, -, col, -, rfl⟩ := mem_spriteCells.1 hp
  exact cellIndex_lt _ _ _ _

/-! ## One execution (R130, R131) -/

/-- `CLS` writes the framebuffer and `display_updated` alone (R130, D13). -/
theorem exec_cls (s : State) : exec .cls s = .next { s with fb := 0, displayUpdated := true } := rfl

/-- The state that `DRW Vx, Vy, n` inside memory leaves. -/
def State.drawn (s : State) (x y : Reg) (n : BitVec 4) : State :=
  { s.setReg VF (collisionFlag (s.sprite x y n).hit) with fb := (s.sprite x y n).fb, displayUpdated := true }

/-- `DRW` that reads no row, or rows inside memory, raises no fatal error (R131, R163). -/
theorem exec_drw {s : State} {n : BitVec 4} (x y : Reg) (h : n.toNat = 0 ∨ s.i.toNat + n.toNat - 1 < 4096) :
    exec (.drw x y n) s = .next (s.drawn x y n) :=
  execDrw_ok x y n s (by omega)

/-- The collision flag is exactly 0 or 1 (R131). -/
theorem collisionFlag_zero_or_one (hit : Bool) : collisionFlag hit = 0 ∨ collisionFlag hit = 1 := by
  cases hit
  · exact .inl rfl
  · exact .inr rfl

/-- The collision flag is 1 exactly on a collision (R131). -/
@[simp] theorem collisionFlag_eq_one {hit : Bool} : collisionFlag hit = 1 ↔ hit = true := by
  cases hit <;> decide

@[simp] theorem State.drawn_fb (s : State) (x y : Reg) (n : BitVec 4) : (s.drawn x y n).fb = (s.sprite x y n).fb := rfl

@[simp] theorem State.drawn_reg_VF (s : State) (x y : Reg) (n : BitVec 4) :
    (s.drawn x y n).reg VF = collisionFlag (s.sprite x y n).hit :=
  s.reg_setReg_same VF _

theorem State.drawn_reg_ne (s : State) (x y : Reg) (n : BitVec 4) {r : Reg} (h : r ≠ VF) : (s.drawn x y n).reg r = s.reg r :=
  s.reg_setReg_ne _ h

/-! ## The same cells drawn twice (R131, C10) -/

section DrawnTwice

variable {l : List (Nat × Bool)} (hdistinct : l.Pairwise fun p q => p.1 ≠ q.1) (hlt : ∀ p ∈ l, p.1 < 2048)
include hdistinct hlt

/-- A cell that drawing a list of distinct cells changed is one of the list, with bit 1. -/
theorem mem_of_drawCells_ne (c : Canvas) {k : Nat} (h : fbGet (drawCells c l).fb k ≠ fbGet c.fb k) : (k, true) ∈ l := by
  obtain ⟨hxor, hout, -⟩ := drawCells_spec l c hdistinct hlt
  obtain ⟨⟨j, bit⟩, hp, rfl⟩ : ∃ p ∈ l, p.1 = k := by
    by_contra hk
    exact h (hout k fun p hp e => hk ⟨p, hp, e⟩)
  rw [hxor _ hp] at h
  cases bit
  · simp at h
  · exact hp

/-- Drawing distinct cells a second time takes the XOR back. -/
theorem drawCells_twice_fb (c : Canvas) (b : Bool) : (drawCells ⟨(drawCells c l).fb, b⟩ l).fb = c.fb := by
  obtain ⟨hxor, hout, -⟩ := drawCells_spec l c hdistinct hlt
  obtain ⟨hxor', hout', -⟩ := drawCells_spec l ⟨(drawCells c l).fb, b⟩ hdistinct hlt
  refine fb_ext fun k _ => ?_
  by_cases hk : ∃ p ∈ l, p.1 = k
  · obtain ⟨p, hp, rfl⟩ := hk
    rw [hxor' p hp, hxor p hp, Bool.xor_assoc, Bool.xor_self, Bool.xor_false]
  · have hne : ∀ p ∈ l, p.1 ≠ k := fun p hp e => hk ⟨p, hp, e⟩
    rw [hout' k hne, hout k hne]

/-- The second drawing meets a lit cell exactly where the first one lit a cell. -/
theorem drawCells_twice_hit (c : Canvas) :
    (drawCells ⟨(drawCells c l).fb, false⟩ l).hit = true ↔
      ∃ k, fbGet c.fb k = false ∧ fbGet (drawCells c l).fb k = true := by
  obtain ⟨hxor, -, -⟩ := drawCells_spec l c hdistinct hlt
  obtain ⟨-, -, hhit⟩ := drawCells_spec l ⟨(drawCells c l).fb, false⟩ hdistinct hlt
  rw [hhit, Bool.false_or, List.any_eq_true]
  constructor
  · rintro ⟨p, hp, hboth⟩
    obtain ⟨hlit, hbit⟩ := Bool.and_eq_true_iff.1 hboth
    refine ⟨p.1, ?_, hlit⟩
    simpa [hxor p hp, hbit] using hlit
  · rintro ⟨k, hunlit, hlit⟩
    have hmem := mem_of_drawCells_ne hdistinct hlt c (k := k) (by simp [hunlit, hlit])
    exact ⟨(k, true), hmem, by simp [hlit]⟩

end DrawnTwice

/-- Where the first `DRW` left its coordinates, the second draws the same cells over the first's framebuffer. -/
theorem State.drawn_sprite {s : State} {x y : Reg} {n : BitVec 4} (hx : (s.drawn x y n).reg x = s.reg x)
    (hy : (s.drawn x y n).reg y = s.reg y) :
    (s.drawn x y n).sprite x y n = drawCells ⟨(s.sprite x y n).fb, false⟩ (s.drawList x y n) := by
  rw [State.sprite, State.drawX, State.drawY, hx, hy]
  rfl

/-! ## The obligations -/

/-- Settles O56: the cleared framebuffer reads 0 at every cell. -/
theorem clearScreenClears : Obligations.ClearScreenClears := by
  intro s
  exact ⟨_, exec_cls s, fun k _ => fbGet_zero k, rfl, rfl⟩

/-- Settles O57: the whole sprite's law at the cells of R132's index expression; `VF` is the collision flag. -/
theorem drawSpriteXors : Obligations.DrawSpriteXors := by
  intro s x y n hin
  obtain ⟨hxor, hout, hhit⟩ :=
    drawSprite_spec s.mem s.i.toNat (s.drawX x) (s.drawY y) n.toNat { fb := s.fb, hit := false } n.isLt
  simp only [← s.cellIndex_draw x y]
  refine ⟨_, exec_drw x y hin, fun row col hr hc => hxor row hr col hc,
    fun k hk => hout k fun row hr col hc => (hk row col hr hc).symm, ?flag, ?collision, rfl, fun r => s.drawn_reg_ne x y n, rfl⟩
  case flag =>
    rw [State.drawn_reg_VF]
    exact collisionFlag_zero_or_one _
  case collision =>
    rw [State.drawn_reg_VF, collisionFlag_eq_one]
    refine hhit.trans ⟨?_, ?_⟩
    · rintro (hfalse | ⟨row, hr, col, hc, hboth⟩)
      · cases hfalse
      · exact ⟨row, col, hr, hc, hboth⟩
    · rintro ⟨row, col, hr, hc, hboth⟩
      exact .inr ⟨row, hr, col, hc, hboth⟩

/-- Settles O58: both executions draw the same list of distinct cells. -/
theorem drawTwiceRestores : Obligations.DrawTwiceRestores := by
  intro s t x y n hin h hx hy
  obtain rfl := next_inj ((exec_drw x y hin).symm.trans h)
  have hdistinct := s.pairwise_drawList x y n
  refine ⟨_, exec_drw (s := s.drawn x y n) x y hin, ?restored, ?collision⟩
  case restored =>
    rw [State.drawn_fb, State.drawn_sprite hx hy]
    exact drawCells_twice_fb hdistinct State.lt_of_mem_drawList ⟨s.fb, false⟩ false
  case collision =>
    rw [State.drawn_reg_VF, collisionFlag_eq_one, State.drawn_sprite hx hy]
    exact drawCells_twice_hit hdistinct State.lt_of_mem_drawList ⟨s.fb, false⟩

/-- Settles O23: a tick, a wait and a capture leave the framebuffer, and by the frame of the meanings an instruction that changes it is
`CLS` or `DRW`. -/
theorem framebufferOnlyByDisplay : Obligations.FramebufferOnlyByDisplay := by
  intro s t hreset h ht hne
  rcases live_step_cases hreset h ht with ⟨rest, rfl⟩ | ⟨-, a, rest, r, hr, rfl⟩ | ⟨hc, hf, a, rest, hk, he⟩
  · obtain ⟨d, e, htick⟩ := (s.take rest).tickTimers_eq
    exact absurd (congrArg State.fb htick) hne
  · obtain ⟨-, -, -, hfb, -⟩ := State.keyCapture_frame (s := (s.take rest).beginCycle a) hr
    exact absurd hfb hne
  · obtain ⟨-, -, hfb, -⟩ := exec_frame hk he
    exact ⟨hc, hf, hfb.resolve_left hne⟩

end Sys2Proof.Machine
end

section
/-! Timer instructions (R140 to R142): each is one write, of a register or of a timer, and the sound output follows `ST` at once (R23). -/

namespace Sys2Proof.Machine

/-- The tone is audible exactly while `ST` is above 0 (R23). -/
@[simp] theorem State.soundActive_eq_true (s : State) : s.soundActive = true ↔ 0 < s.st.toNat := decide_eq_true_iff

/-- `LD Vx, DT` is the write of `DT` to `V[x]` (R140). -/
theorem exec_ldVxDT (s : State) (x : Reg) : exec (.ldVxDT x) s = .next (s.setReg x s.dt) := rfl

/-- `LD DT, Vx` writes `V[x]` to `DT` alone (R141). -/
theorem exec_ldDTVx (s : State) (x : Reg) : exec (.ldDTVx x) s = .next { s with dt := s.reg x } := rfl

/-- `LD ST, Vx` writes `V[x]` to `ST` alone (R142). -/
theorem exec_ldSTVx (s : State) (x : Reg) : exec (.ldSTVx x) s = .next { s with st := s.reg x } := rfl

/-- Settles O46: the read is one register write, which O8 describes, and each write changes its timer alone, `ST` with its output. -/
theorem timerMoves : Obligations.TimerMoves := by
  intro s x
  refine ⟨?ldVxDT, ?ldDTVx, ?ldSTVx⟩
  case ldVxDT => exact ⟨_, exec_ldVxDT s x, registerWriteChangesOneRegister s x s.dt⟩
  case ldDTVx => exact ⟨_, exec_ldDTVx s x, rfl, rfl⟩
  case ldSTVx => exact ⟨_, exec_ldSTVx s x, rfl, rfl, State.soundActive_eq_true _⟩

end Sys2Proof.Machine
end

section
/-! Random and key-wait instructions (R145, R146): one masked register write, and the await marker. -/

namespace Sys2Proof.Machine

/-- `RND Vx, kk` is the write of the masked random byte to `V[x]` (R145, D17). -/
theorem exec_rnd (s : State) (x : Reg) (kk : Byte) : exec (.rnd x kk) s = .next (s.setReg x (s.now.rnd &&& kk)) := rfl

/-- Settles O47: one register write, which O8 describes, and a mask bounds what it lets through. -/
theorem randomIsMasked : Obligations.RandomIsMasked := by
  intro s x kk
  have hmask : (s.now.rnd &&& kk).toNat ≤ kk.toNat := by
    rw [BitVec.toNat_and]
    exact Nat.and_le_right
  refine ⟨_, exec_rnd s x kk, registerWriteChangesOneRegister s x _, ?_⟩
  rwa [State.reg_setReg_same]

/-- Settles O48: the meaning is that one update (D12). -/
theorem keyWaitSuspends : Obligations.KeyWaitSuspends :=
  fun _ _ => rfl

end Sys2Proof.Machine
end

section
/-! Exceptions and timers (R160 to R176): the fatal error of an executed instruction and its record, which instructions can overflow and
underflow the stack, and the timers under a tick and under a `cycle`. -/

namespace Sys2Proof.Machine

/-! ## The fatal error of an executed instruction (R161 to R163, R167) -/

/-- The condition of a fatal error reads the stack and `I` alone, which the start of a `cycle` and the fetch leave. -/
theorem fatalKind_executing (i : Instr) (s : State) (a : CycleInput) (rest : List HostCall) :
    fatalKind i (s.executing a rest) = fatalKind i s := by
  cases i <;> rfl

/-- The word at `PC` is that of the instruction it decodes to: decoding loses no bit (R64). -/
theorem State.encode_instrAtPC (s : State) : encode s.instrAtPC = s.opcodeAtPC :=
  (encodeOfDecode s.opcodeAtPC).2

/-- An executed instruction whose condition holds takes its fatal error. -/
theorem step_of_fatal {s : State} {k : Fault} {a : CycleInput} {rest : List HostCall} (hn : s.nextCall = (.cycle a, rest))
    (hf : s.fetchable) (hk : fatalKind s.instrAtPC s = some k) :
    step s = .next ((s.executing a rest).raiseIn s.instrAtPC k) :=
  (step_of_fetchable hn hf).trans (exec_of_fatal ((fatalKind_executing _ s a rest).trans hk))

/-- The record of an executed instruction's fatal error holds its address, which the fetch has advanced by 2, and its word (R19, D14). -/
theorem State.fault_executing_raiseIn (s : State) (a : CycleInput) (rest : List HostCall) (k : Fault) :
    ((s.executing a rest).raiseIn s.instrAtPC k).fault = some { kind := k, pc := s.pc, opcode := some s.opcodeAtPC } := by
  rw [State.raiseIn_fault, State.executing_pc, BitVec.add_sub_cancel, State.encode_instrAtPC]

/-- A `cycle` that executes an instruction with its condition leaves that record. -/
theorem fault_of_fatal {s t : State} {k : Fault} (hc : s.nextIsCycle) (hf : s.fetchable)
    (hk : fatalKind s.instrAtPC s = some k) (h : step s = .next t) :
    t.fault = some { kind := k, pc := s.pc, opcode := some s.opcodeAtPC } := by
  obtain ⟨a, rest, hn⟩ := hc
  obtain rfl := next_inj ((step_of_fatal hn hf hk).symm.trans h)
  exact s.fault_executing_raiseIn a rest k

/-- An executed instruction whose condition does not hold neither halts the machine nor writes `FAULT`. -/
theorem step_of_no_fatal {s : State} (hc : s.nextIsCycle) (hf : s.fetchable) (hk : fatalKind s.instrAtPC s = none) :
    ∃ t, step s = .next t ∧ t.run ≠ .halted ∧ t.fault = s.fault := by
  obtain ⟨a, rest, hn⟩ := hc
  obtain ⟨t, he⟩ := exec_is_next s.instrAtPC (s.executing a rest)
  have hk' := (fatalKind_executing s.instrAtPC s a rest).trans hk
  have hrun : (s.executing a rest).run ≠ .halted := by simp [hf.1]
  obtain ⟨⟨hfault, -⟩, -⟩ := exec_frame hk' he
  exact ⟨t, (step_of_fetchable hn hf).trans he, exec_run_ne_halted hrun hk' he, hfault⟩

/-- Settles O15: with the condition the step is the fatal-error entry, which writes the record; without it the meaning ends well. -/
theorem fatalErrorsExactly : Obligations.FatalErrorsExactly := by
  intro s hc hf
  refine ⟨fun k hk => ?_, step_of_no_fatal hc hf⟩
  obtain ⟨a, rest, hn⟩ := hc
  exact ⟨_, step_of_fatal hn hf hk, rfl, s.fault_executing_raiseIn a rest k, rfl⟩

/-! ## The two stack errors (R161, R162) -/

/-- Only `CALL` can overflow the stack, and does from depth 16 on (R161). -/
theorem fatalKind_eq_stackOverflow {i : Instr} {s : State} :
    fatalKind i s = some .stackOverflow ↔ 16 ≤ s.stack.length ∧ ∃ nnn, i = .call nnn := by
  cases i with
  | call nnn => simp [fatalKind]
  | _ => simp [fatalKind]

/-- Only `RET` can underflow the stack, and does where it is empty (R162). -/
theorem fatalKind_eq_stackUnderflow {i : Instr} {s : State} :
    fatalKind i s = some .stackUnderflow ↔ s.stack = [] ∧ i = .ret := by
  cases i with
  | ret => simp [fatalKind]
  | _ => simp [fatalKind]

/-- In a running machine of the invariant a `cycle` records a kind other than that of a fetch fault exactly when it executes an instruction
with that condition: before it there is no record (R19). -/
theorem fault_kind_iff {s t : State} {k : Fault} (hk : k ≠ .addressOutOfRange) (hs : s.Inv) (hr : s.run = .running)
    (hc : s.nextIsCycle) (h : step s = .next t) :
    (∃ f, t.fault = some f ∧ f.kind = k) ↔ s.fetchable ∧ fatalKind s.instrAtPC s = some k := by
  by_cases hp : s.pc.toNat ≤ 4093
  · have hf : s.fetchable := ⟨hr, hp⟩
    cases hkind : fatalKind s.instrAtPC s with
    | some j =>
      simp [fault_of_fatal hc hf hkind h, hf]
    | none =>
      obtain ⟨t', ht', -, hfault⟩ := step_of_no_fatal hc hf hkind
      obtain rfl := next_inj (ht'.symm.trans h)
      have hnone := hs.fault_eq_none (by simp [hr])
      simp [hfault, hnone]
  · obtain ⟨t', ht', -, hfault, -⟩ := fetchFaultHalts s hc hr (by omega)
    obtain rfl := next_inj (ht'.symm.trans h)
    simp [hfault, hk.symm, State.fetchable, hp]

/-- Settles O16: of the instructions only `CALL` overflows, the invariant bounds the depth by 16, and the word of `CALL nnn` is 0x2nnn. -/
theorem stackOverflowOnlyByCall : Obligations.StackOverflowOnlyByCall := by
  intro s t hs hr hc h
  have hdepth := hs.depth (by simp [hr])
  refine ⟨?exactly, fun nnn hf hlen hi => ?record⟩
  case exactly =>
    have hfull : 16 ≤ s.stack.length ↔ s.stack.length = 16 := by omega
    rw [fault_kind_iff (by decide) hs hr hc h, fatalKind_eq_stackOverflow, hfull]
  case record =>
    have hfault := fault_of_fatal hc hf (fatalKind_eq_stackOverflow.2 ⟨hlen.ge, nnn, hi⟩) h
    have hword : 0x2000#16 ||| nnn.setWidth 16 = encode (.call nnn) := formatNNN_zero_or_addrImm 0x2#4 nnn
    rw [hfault, hword, ← hi, State.encode_instrAtPC]

/-- Settles O17: of the instructions only `RET` underflows, and its word is 0x00EE. -/
theorem stackUnderflowOnlyByRet : Obligations.StackUnderflowOnlyByRet := by
  intro s t hs hr hc h
  refine ⟨?exactly, fun hf hempty hi => ?record⟩
  case exactly => rw [fault_kind_iff (by decide) hs hr hc h, fatalKind_eq_stackUnderflow]
  case record =>
    have hfault := fault_of_fatal hc hf (fatalKind_eq_stackUnderflow.2 ⟨hempty, hi⟩) h
    have hword : 0x00EE#16 = encode .ret := rfl
    rw [hfault, hword, ← hi, State.encode_instrAtPC]

/-! ## The timers (R174, R176) -/

/-- Settles O21: `Halted` ignores the tick (R182), and elsewhere both timers go through the floored decrement. -/
theorem tickDecrementsTimers : Obligations.TickDecrementsTimers := by
  intro s rest hn
  by_cases hr : s.run = .halted
  · refine ⟨s.take rest, ?_, rfl, fun hlive => absurd hr hlive, fun _ => ⟨rfl, rfl⟩⟩
    rw [step_of_tick hn, State.tickTimers_of_halted (by exact hr)]
  · exact ⟨_, step_tick hn hr, rfl, fun _ => ⟨decTimer_toNat s.dt, decTimer_toNat s.st⟩, fun hhalted => absurd hhalted hr⟩

/-- Settles O22: a wait and a capture leave both timers, and by the frame of the meanings an instruction that writes one is its `LD`. -/
theorem cyclesKeepTimers : Obligations.CyclesKeepTimers := by
  intro s t hc h ht
  rcases cycle_cases hc h ht with ⟨a, rest, r, hr, rfl⟩ | ⟨a, rest, -, hf, hk, he⟩
  · obtain ⟨-, -, -, -, -, hdt, hst, -⟩ := State.keyCapture_frame (s := (s.take rest).beginCycle a) hr
    exact ⟨.inl hdt, .inl hst⟩
  · obtain ⟨-, -, -, -, -, -, -, hdt, hst, -⟩ := exec_frame hk he
    exact ⟨hdt.imp_right fun ⟨x, hx⟩ => ⟨x, hf, hx⟩, hst.imp_right fun ⟨x, hx⟩ => ⟨x, hf, hx⟩⟩

end Sys2Proof.Machine
end

section
/-! Launch and end of a run (R166, R190, R201): the bound on the ROM, and the jump to itself. -/

namespace Sys2Proof.Machine

/-- Settles O10: 0x200 bytes of memory lie below the ROM, so the bound on its length is 3584. -/
theorem oversizedRomRefused : Obligations.OversizedRomRefused := by
  intro s rom rest hn
  rw [step_of_reset hn]
  refine ⟨fun hlarge => State.resetLoad_refused _ rom (by omega), fun hfits => ?_⟩
  obtain ⟨m, hload, -⟩ := State.resetLoad_ok (s.take rest) rom (by omega)
  exact ⟨_, hload⟩

/-- A `cycle` in an idle machine takes back the advance of the fetch (R201). -/
theorem step_of_idle {s : State} {a : CycleInput} {rest : List HostCall} (h : s.idle) (hn : s.nextCall = (.cycle a, rest)) :
    step s = .next { s.executing a rest with pc := s.pc } := by
  obtain ⟨hf, nnn, hi, hself⟩ := h
  have htarget : addrImm nnn = s.pc := BitVec.eq_of_toNat_eq ((toNat_addrImm nnn).trans hself)
  rw [step_of_fetchable hn hf, hi, ← htarget]
  rfl

/-- Settles O31: memory and `PC` are as before, so the same jump is next. -/
theorem idleLoopStays : Obligations.IdleLoopStays := by
  intro s a rest hidle hn
  exact ⟨_, step_of_idle hidle hn, hidle, rfl, rfl⟩

end Sys2Proof.Machine
end

section
/-! The key wait (R181, R202): a tick and a `cycle` with no key pressed leave it, a `cycle` with a key pressed ends it. -/

namespace Sys2Proof.Machine

/-- The scan finds no key exactly in the snapshot with none pressed (R27). -/
theorem lowestKey_eq_none_iff {keys : Keys} : lowestKey keys = none ↔ keys = 0 := by
  rw [lowestKey_none]
  constructor
  · intro h
    exact BitVec.eq_of_getLsbD_eq fun k hk => by rw [h k hk, BitVec.ofNat_eq_ofNat, BitVec.getLsbD_zero]
  · rintro rfl k -
    exact BitVec.getLsbD_zero

/-- A `cycle` in the key wait ends it exactly if its snapshot has a key pressed (R27). -/
theorem step_keyWait {s t : State} {r : Reg} {a : CycleInput} {rest : List HostCall} (hr : s.run = .awaitingKey r)
    (hn : s.nextCall = (.cycle a, rest)) (h : step s = .next t) :
    t.run = if a.keys = 0 then .awaitingKey r else .running := by
  have hstep := (step_of_cycle hn).trans (State.cycle_awaiting (s := s.take rest) a hr)
  obtain rfl := next_inj (hstep.symm.trans h)
  by_cases h0 : a.keys = 0
  · have hnone : lowestKey a.keys = none := lowestKey_eq_none_iff.2 h0
    rw [if_pos h0, State.keyCapture_of_none r (by exact hnone)]
    exact hr
  · obtain ⟨k, hsome⟩ := Option.ne_none_iff_exists'.1 (mt lowestKey_eq_none_iff.1 h0)
    rw [if_neg h0, State.keyCapture_of_some r (by exact hsome)]

/-- The key wait under every call but a reset: it ends exactly by the move that lifts it (R202). -/
theorem keyWait_step {s t : State} {r : Reg} (hw : s.waits (.key r)) (h : step s = .next t) (hreset : ¬ s.nextIsReset) :
    t.waits (.key r) ↔ ¬ (Wait.key r).liftedBy s.nextCall.1 := by
  have hr : s.run = .awaitingKey r := hw
  rcases s.nextCall_cases with ⟨a, rest, hn⟩ | ⟨rest, hn⟩ | hc
  · have hrun := step_keyWait hr hn h
    by_cases h0 : a.keys = 0 <;> simp [State.waits, Wait.liftedBy, hn, hrun, h0]
  · have hlive : s.run ≠ .halted := by simp [hr]
    obtain rfl := next_inj ((step_tick hn hlive).symm.trans h)
    simp [State.waits, Wait.liftedBy, hn, hr]
  · exact absurd hc hreset

end Sys2Proof.Machine
end

section
/-! The delay loop (R198, R202): its three instructions under a `cycle` and a tick, and from them the wait. -/

namespace Sys2Proof.Machine

/-- The machine runs at offset `k` of the delay loop at `a` over `V[x]`, with `d` in `DT`. Offset 6 is the address after the loop. -/
structure State.AtDelayLoop (s : State) (a : Nat) (x : Reg) (k : Nat) (d : Byte) : Prop where
  run : s.run = .running
  loop : s.delayLoopAt a x
  pc : s.pc.toNat = a + k
  dt : s.dt = d

/-- Polling with `d` in `DT`: at one of the three instructions, where the test still has a value other than 0 to see. -/
def State.polls (s : State) (a : Nat) (x : Reg) (d : Byte) : Prop :=
  s.AtDelayLoop a x 0 d ∨ (s.AtDelayLoop a x 2 d ∧ s.reg x ≠ 0) ∨ s.AtDelayLoop a x 4 d

/-- The delay wait is polling with `DT` not 0. -/
theorem State.waits_delay_iff {s : State} {a : Nat} {x : Reg} : s.waits (.delay a x) ↔ s.dt ≠ 0 ∧ s.polls a x s.dt := by
  constructor
  · rintro ⟨hrun, hloop, hdt, hpc | ⟨hpc, hreg⟩ | hpc⟩
    · exact ⟨hdt, .inl ⟨hrun, hloop, hpc, rfl⟩⟩
    · exact ⟨hdt, .inr (.inl ⟨⟨hrun, hloop, hpc, rfl⟩, hreg⟩)⟩
    · exact ⟨hdt, .inr (.inr ⟨hrun, hloop, hpc, rfl⟩)⟩
  · rintro ⟨hdt, ⟨hrun, hloop, hpc, -⟩ | ⟨⟨hrun, hloop, hpc, -⟩, hreg⟩ | ⟨hrun, hloop, hpc, -⟩⟩
    · exact ⟨hrun, hloop, hdt, .inl hpc⟩
    · exact ⟨hrun, hloop, hdt, .inr (.inl ⟨hpc, hreg⟩)⟩
    · exact ⟨hrun, hloop, hdt, .inr (.inr hpc)⟩

/-- `DT` of a polling machine. -/
theorem State.polls.dt_eq {s : State} {a : Nat} {x : Reg} {d : Byte} (h : s.polls a x d) : s.dt = d := by
  rcases h with h | ⟨h, -⟩ | h <;> exact h.dt

/-! ## One call of the host -/

section OneCall

variable {s t : State} {a k : Nat} {x : Reg} {d : Byte}

/-- Advancing `PC` by 2 inside the loop does not wrap. -/
theorem State.AtDelayLoop.toNat_pc_add_two (hs : s.AtDelayLoop a x k d) (hk : k ≤ 4) : (s.pc + 2).toNat = a + (k + 2) := by
  have hpc := hs.pc
  obtain ⟨ha, -⟩ := hs.loop
  bv_omega

/-- A tick decrements `DT` and leaves the place in the loop and the registers (R174). -/
theorem State.AtDelayLoop.tick (hs : s.AtDelayLoop a x k d) (hc : s.nextIsTick) (h : step s = .next t) :
    t.AtDelayLoop a x k (decTimer d) ∧ t.reg x = s.reg x := by
  obtain ⟨rest, hn⟩ := hc
  have hlive : s.run ≠ .halted := by simp [hs.run]
  obtain rfl := next_inj ((step_tick hn hlive).symm.trans h)
  exact ⟨⟨hs.run, State.delayLoopAt_of_mem rfl hs.loop, hs.pc, congrArg decTimer hs.dt⟩, rfl⟩

/-- A `cycle` at the head reads `DT` (R140). -/
theorem State.AtDelayLoop.read (hs : s.AtDelayLoop a x 0 d) (hc : s.nextIsCycle) (h : step s = .next t) :
    t.AtDelayLoop a x 2 d ∧ t.reg x = d := by
  obtain ⟨input, rest, hn⟩ := hc
  obtain rfl := next_inj ((delayLoop_read hn hs.run hs.loop hs.pc).symm.trans h)
  exact ⟨⟨hs.run, State.delayLoopAt_of_mem rfl hs.loop, hs.toNat_pc_add_two (by omega), hs.dt⟩,
    (State.reg_setReg_same _ x _).trans hs.dt⟩

/-- A `cycle` at the test goes on to the jump back, or past it where the value read is 0 (R90). -/
theorem State.AtDelayLoop.test (hs : s.AtDelayLoop a x 2 d) (hc : s.nextIsCycle) (h : step s = .next t) :
    t.AtDelayLoop a x (if s.reg x = 0 then 6 else 4) d := by
  obtain ⟨input, rest, hn⟩ := hc
  obtain rfl := next_inj ((delayLoop_test hn hs.run hs.loop hs.pc).symm.trans h)
  have hjump : (s.pc + 2).toNat = a + 4 := hs.toNat_pc_add_two (by omega)
  obtain ⟨ha, -⟩ := hs.loop
  rw [State.skipIf_eq]
  refine ⟨hs.run, State.delayLoopAt_of_mem rfl hs.loop, ?_, hs.dt⟩
  by_cases h0 : s.reg x = 0
  · simp only [State.executing_pc, h0, beq_self_eq_true, if_true]
    bv_omega
  · simp only [State.executing_pc, h0, beq_eq_false_iff_ne.2 h0, if_false]
    exact hjump

/-- A `cycle` at the jump goes back to the head (R82). -/
theorem State.AtDelayLoop.back (hs : s.AtDelayLoop a x 4 d) (hc : s.nextIsCycle) (h : step s = .next t) :
    t.AtDelayLoop a x 0 d := by
  obtain ⟨input, rest, hn⟩ := hc
  obtain rfl := next_inj ((delayLoop_back hn hs.run hs.loop hs.pc).symm.trans h)
  obtain ⟨ha, -⟩ := hs.loop
  have hhead : (BitVec.ofNat 16 a).toNat = a := by
    rw [BitVec.toNat_ofNat]
    omega
  exact ⟨hs.run, State.delayLoopAt_of_mem rfl hs.loop, hhead, hs.dt⟩

/-- A tick leaves the machine polling, with `DT` decremented. -/
theorem State.polls.tick (hs : s.polls a x d) (hc : s.nextIsTick) (h : step s = .next t) : t.polls a x (decTimer d) := by
  rcases hs with hs | ⟨hs, hreg⟩ | hs
  · exact .inl (hs.tick hc h).1
  · obtain ⟨ht, hsame⟩ := hs.tick hc h
    exact .inr (.inl ⟨ht, by rwa [hsame]⟩)
  · exact .inr (.inr (hs.tick hc h).1)

/-- While `DT` is not 0, a `cycle` leaves the machine polling: the value it reads is not 0 either. -/
theorem State.polls.cycle (hd : d ≠ 0) (hs : s.polls a x d) (hc : s.nextIsCycle) (h : step s = .next t) :
    t.polls a x d := by
  rcases hs with hs | ⟨hs, hreg⟩ | hs
  · obtain ⟨ht, hread⟩ := hs.read hc h
    exact .inr (.inl ⟨ht, by rwa [hread]⟩)
  · have ht := hs.test hc h
    rw [if_neg hreg] at ht
    exact .inr (.inr ht)
  · exact .inl (hs.back hc h)

end OneCall

/-- The delay wait survives a `cycle` (R202). -/
theorem delayWait_cycle {s t : State} {a : Nat} {x : Reg} (hw : s.waits (.delay a x)) (hc : s.nextIsCycle)
    (h : step s = .next t) : t.waits (.delay a x) := by
  obtain ⟨hdt, hs⟩ := State.waits_delay_iff.1 hw
  have ht := hs.cycle hdt hc h
  rw [State.waits_delay_iff, ht.dt_eq]
  exact ⟨hdt, ht⟩

/-- The tick that takes `DT` from 1 to 0 ends the delay wait (R202). -/
theorem delayWait_lastTick {s t : State} {a : Nat} {x : Reg} (hw : s.waits (.delay a x)) (hdt : s.dt = 1)
    (hc : s.nextIsTick) (h : step s = .next t) : ¬ t.waits (.delay a x) := by
  obtain ⟨-, hs⟩ := State.waits_delay_iff.1 hw
  have ht : t.dt = decTimer 1 := by rw [(hs.tick hc h).dt_eq, hdt]
  intro hw'
  exact (State.waits_delay_iff.1 hw').1 ht

/-- Settles O59: the key wait by whether the snapshot has a key, the delay wait by whether the call is a `cycle` or the last tick. -/
theorem waitsLastUntilHostMove : Obligations.WaitsLastUntilHostMove := by
  intro s t w hw h hreset
  cases w with
  | key r =>
    have hends := keyWait_step hw h hreset
    exact ⟨hends.2, fun hlift _ hw' => hends.1 hw' hlift⟩
  | delay a x =>
    rcases s.nextCall_cases with ⟨input, rest, hn⟩ | ⟨rest, hn⟩ | hc
    · refine ⟨fun _ => delayWait_cycle hw ⟨input, rest, hn⟩ h, fun hlift => ?_⟩
      simp [Wait.liftedBy, hn] at hlift
    · refine ⟨fun hlift => ?_, fun _ hdt => delayWait_lastTick hw (hdt a x rfl) ⟨rest, hn⟩ h⟩
      simp [Wait.liftedBy, hn] at hlift
    · exact absurd hc hreset

end Sys2Proof.Machine
end

section
/-! The end of the delay loop under a fair host (R198): progress from one condition to another, and the loop as a chain of such steps. First
the ticks take `DT` down to 0, then at most four `cycle`s leave the loop. -/

namespace Sys2Proof.Machine

/-! ## Progress under a fair host that never resets -/

/-- Every fair run without a reset that starts in `P` comes to `Q`. -/
def leadsTo (P Q : State → Prop) : Prop :=
  ∀ s, P s → s.fairHost → s.neverReset → ∃ n t, s.after n = some t ∧ Q t

theorem leadsTo.refl (P : State → Prop) : leadsTo P P := fun s hs _ _ => ⟨0, s, rfl, hs⟩

theorem leadsTo.trans {P Q R : State → Prop} (hPQ : leadsTo P Q) (hQR : leadsTo Q R) : leadsTo P R := by
  intro s hs hfair hnever
  obtain ⟨n, t, ht, hQ⟩ := hPQ s hs hfair hnever
  obtain ⟨hfair', hnever'⟩ := State.fairHost_after ht hfair hnever
  obtain ⟨m, u, hu, hR⟩ := hQR t hQ hfair' hnever'
  exact ⟨n + m, u, (State.after_add ht m).trans hu, hR⟩

/-- Progress by a move that the host is bound to make: every other call keeps `P`, the move ends in `Q`. -/
theorem leadsTo_of_move {P Q move : State → Prop} (hfair : ∀ s : State, s.fairHost → ∃ n t, s.after n = some t ∧ move t)
    (hkeep : ∀ t u, P t → ¬ t.nextIsReset → ¬ move t → step t = .next u → P u)
    (hmove : ∀ t u, P t → move t → step t = .next u → Q u) : leadsTo P Q := by
  intro s hs hhost hnever
  by_contra hnone
  have hP : ∀ n t, s.after n = some t → P t := by
    intro n
    induction n with
    | zero =>
      intro t ht
      cases ht
      exact hs
    | succ n ih =>
      intro u hu
      obtain ⟨t, ht, hstep⟩ := State.after_succ.1 hu
      have hstill : ¬ move t := fun hm => hnone ⟨n + 1, u, hu, hmove t u (ih t ht) hm hstep⟩
      exact hkeep t u (ih t ht) (hnever n t ht) hstill hstep
  obtain ⟨n, t, ht, hm⟩ := hfair s hhost
  obtain ⟨u, hstep⟩ := step_is_next (hnever n t ht)
  exact hnone ⟨n + 1, u, State.after_succ.2 ⟨t, ht, hstep⟩, hmove t u (hP n t ht) hm hstep⟩

/-- Progress by a tick: `P` lasts through every `cycle`. -/
theorem leadsTo_of_tick {P Q : State → Prop} (hcycle : ∀ t u, P t → t.nextIsCycle → step t = .next u → P u)
    (htick : ∀ t u, P t → t.nextIsTick → step t = .next u → Q u) : leadsTo P Q := by
  refine leadsTo_of_move (move := State.nextIsTick) (fun s hfair => ?_) (fun t u hP hreset hstill h => ?_) htick
  · obtain ⟨n, -, hn⟩ := hfair.1 0
    exact ⟨n, hn⟩
  · exact hcycle t u hP (t.nextCall_cases.resolve_right (not_or.2 ⟨hstill, hreset⟩)) h

/-- Progress by a `cycle`: `P` lasts through every tick. -/
theorem leadsTo_of_cycle {P Q : State → Prop} (htick : ∀ t u, P t → t.nextIsTick → step t = .next u → P u)
    (hcycle : ∀ t u, P t → t.nextIsCycle → step t = .next u → Q u) : leadsTo P Q := by
  refine leadsTo_of_move (move := State.nextIsCycle) (fun s hfair => ?_) (fun t u hP hreset hstill h => ?_) hcycle
  · obtain ⟨n, -, hn⟩ := hfair.2 0
    exact ⟨n, hn⟩
  · exact htick t u hP ((t.nextCall_cases.resolve_left hstill).resolve_right hreset) h

/-! ## The loop -/

/-- The ticks take `DT` down to 0 while the machine polls: by induction on `DT`. -/
theorem polls_leadsTo_zero (a : Nat) (x : Reg) (d : Byte) : leadsTo (·.polls a x d) (·.polls a x 0) := by
  induction hn : d.toNat generalizing d with
  | zero =>
    obtain rfl : d = 0 := BitVec.eq_of_toNat_eq hn
    exact leadsTo.refl _
  | succ n ih =>
    have hd : d ≠ 0 := by
      rintro rfl
      cases hn
    have hdec : (decTimer d).toNat = n := by rw [decTimer_toNat, hn, Nat.add_sub_cancel]
    have hnext : leadsTo (·.polls a x d) (·.polls a x (decTimer d)) :=
      leadsTo_of_tick (fun _ _ => State.polls.cycle hd) (fun _ _ => State.polls.tick)
    exact hnext.trans (ih (decTimer d) hdec)

/-- With `DT` at 0 every place of the loop lasts through the ticks, so that the next `cycle` decides. -/
theorem atDelayLoop_leadsTo_of_cycle {a k : Nat} {x : Reg} {p : Byte → Prop} {Q : State → Prop}
    (hcycle : ∀ t u, t.AtDelayLoop a x k 0 ∧ p (t.reg x) → t.nextIsCycle → step t = .next u → Q u) :
    leadsTo (fun s => s.AtDelayLoop a x k 0 ∧ p (s.reg x)) Q := by
  refine leadsTo_of_cycle (fun t u hs hc h => ?_) hcycle
  obtain ⟨hloop, hp⟩ := hs
  obtain ⟨hloop', hsame⟩ := hloop.tick hc h
  exact ⟨hloop', by rwa [hsame]⟩

/-- With `DT` at 0 the head leads out of the loop: a 0 is read and tested. -/
theorem head_leadsTo_exit (a : Nat) (x : Reg) : leadsTo (·.AtDelayLoop a x 0 0) (·.AtDelayLoop a x 6 0) := by
  have hread : leadsTo (·.AtDelayLoop a x 0 0) (fun s => s.AtDelayLoop a x 2 0 ∧ s.reg x = 0) :=
    leadsTo_of_cycle (fun _ _ hs hc h => (hs.tick hc h).1) (fun _ _ hs hc h => hs.read hc h)
  refine hread.trans (atDelayLoop_leadsTo_of_cycle (p := (· = 0)) fun t u hs hc h => ?_)
  have hu := hs.1.test hc h
  rwa [if_pos hs.2] at hu

/-- With `DT` at 0 the jump leads back to the head and then out. -/
theorem back_leadsTo_exit (a : Nat) (x : Reg) : leadsTo (·.AtDelayLoop a x 4 0) (·.AtDelayLoop a x 6 0) :=
  (leadsTo_of_cycle (fun _ _ hs hc h => (hs.tick hc h).1) fun _ _ hs hc h => hs.back hc h).trans (head_leadsTo_exit a x)

/-- With `DT` at 0 a test that still fails leads to the jump and then out. -/
theorem test_leadsTo_exit (a : Nat) (x : Reg) :
    leadsTo (fun s => s.AtDelayLoop a x 2 0 ∧ s.reg x ≠ 0) (·.AtDelayLoop a x 6 0) := by
  refine leadsTo.trans (atDelayLoop_leadsTo_of_cycle (p := (· ≠ 0)) fun t u hs hc h => ?_) (back_leadsTo_exit a x)
  have hu := hs.1.test hc h
  rwa [if_neg hs.2] at hu

/-- With `DT` at 0 a polling machine leaves the loop, from each of its three instructions. -/
theorem polls_zero_leadsTo_exit (a : Nat) (x : Reg) : leadsTo (·.polls a x 0) (·.AtDelayLoop a x 6 0) := by
  intro s hs
  rcases hs with hs | hs | hs
  · exact head_leadsTo_exit a x s hs
  · exact test_leadsTo_exit a x s hs
  · exact back_leadsTo_exit a x s hs

/-- Settles O60: the ticks bring `DT` to 0, and then the `cycle`s leave the loop. -/
theorem delayLoopEndsUnderFairHost : Obligations.DelayLoopEndsUnderFairHost := by
  intro s a x hw hfair hnever
  obtain ⟨-, hs⟩ := State.waits_delay_iff.1 hw
  have hexit := (polls_leadsTo_zero a x s.dt).trans (polls_zero_leadsTo_exit a x)
  obtain ⟨n, t, ht, hrun, -, hpc, hdt⟩ := hexit s hs hfair hnever
  exact ⟨n, t, ht, hrun, hpc, hdt⟩

end Sys2Proof.Machine
end
